-- ==== Sys2Proof/Word.lean ====
section
/-! DEFINITION. The word types of the core (R5, R6, R30) and the one quotient the spec's notation adds. -/

namespace Sys2Proof

/-- A unit of `IN` or `OUT`: a byte or a character code, 8 bits (R5, R6, R51). -/
abbrev Byte := BitVec 8

/-- The accumulator `ACC`, 32 bits, unsigned (R30). -/
abbrev Acc := BitVec 32

/-- A base-85 digit: "a natural in 0 to 84" (00_scope section 4); seven bits hold it (R178). -/
abbrev Digit := Fin 85

/-- `ceil(a / b)` of 00_scope section 4: `floor((a + b - 1) / b)`, on exact naturals (R179). -/
abbrev ceilQuot (a b : Nat) : Nat := (a + b - 1) / b

end Sys2Proof
end

