-- ==== Sys2Proof/Config.lean ====
section
/-! DEFINITION. What one instance of the core fixes (R7, R8), the named configurations, the address spaces
(R50), and the free values: constants with no body, of which nothing can be proved but that they are some value
of their type (93_implementation_defined section 2). -/

namespace Sys2Proof

/-- The open parameters of an instance (R7, R8). They are fixed for the instance and no step changes them (R41). -/
structure Params where
  /-- `LEN_BITS`: the width of `LEN_IN`, `LEN_OUT`, `ERR_IDX`, `GRP` and `NGRP` (R7). -/
  lenBits : Nat
  /-- `IN_CAP`: the number of units of `IN` (R8). -/
  inCap : Nat
  /-- `OUT_CAP`: the number of units of `OUT` (R8). -/
  outCap : Nat
deriving DecidableEq, Repr

/-- Configuration `REF` (R8). -/
def Params.ref : Params := ⟨16, 4096, 5120⟩

/-- Configuration `TINY` (R8). -/
def Params.tiny : Params := ⟨8, 16, 20⟩

/-- Configuration `SKEW` (R8), where the `OUT_CAP` test is the one that binds. -/
def Params.skew : Params := ⟨8, 16, 10⟩

/-- The spaces a host access can name (R50). The ROMs are reached by no host access (R22). -/
inductive Space where
  /-- The register block, indices 0 to 6 (R36). -/
  | regs
  /-- The input buffer `IN` (R34). -/
  | inBuf
  /-- The output buffer `OUT` (R35). -/
  | outBuf
deriving DecidableEq, Repr

namespace Config

/-- FREE VALUE (DESIGN CHOICE, log 3): what unit `i` of `IN` holds after reset number `epoch` until the host
writes it (R42, U2). It does not change between resets, so reading it twice gives the same value (R58). -/
opaque freeIn (epoch i : Nat) : Byte

/-- FREE VALUE (DESIGN CHOICE, log 8): what a host read returns where the spec gives no value: `OUT` outside the result
(U3, U4), and every register or unit but `STATE` while BUSY (U6). -/
opaque freeRead (tick : Nat) (space : Space) (i : Nat) : Nat

/-- FREE VALUE (DESIGN CHOICE, logs 11 and 12): `ACC` after a reset or after `InputTooLarge` at START (U1). -/
opaque freeAcc (tick : Nat) : Acc

/-- FREE VALUE (DESIGN CHOICE, logs 11 and 12): `GRP` after a reset or after `InputTooLarge` at START (U1). -/
opaque freeGrp (tick : Nat) : Nat

/-- FREE VALUE (DESIGN CHOICE, logs 11 and 12): `NGRP` after a reset or after `InputTooLarge` at START (U1). -/
opaque freeNgrp (tick : Nat) : Nat

/-- FREE VALUE (DESIGN CHOICE, logs 11 and 12): `PAD` after a reset or after `InputTooLarge` at START (U1). -/
opaque freePad (tick : Nat) : BitVec 3

end Config

end Sys2Proof
end

