-- ==== Sys2Proof/Syntax.lean ====
section
/-! DEFINITION. The syntax: the two operations of spec/opcode_table.json, the group formats (R80), the moves the
environment can make (R36, R50, R220, R227) and the transcript statements of R94. -/

namespace Sys2Proof

/-- The operations of the opcode table (R90). Neither has operand bits: the operands are `LEN_IN` and
`IN[0 .. LEN_IN)` (R83). -/
inductive Instr where
  /-- ENCODE, `OP` = 0 (R100). -/
  | encode
  /-- DECODE, `OP` = 1 (R130). -/
  | decode
deriving DecidableEq, Repr

/-- Format `B4`: the four units of a byte group, lowest buffer index first (R80, R52). -/
structure ByteGroup where
  b0 : Byte
  b1 : Byte
  b2 : Byte
  b3 : Byte
deriving DecidableEq, Repr

/-- Five things of one group, most significant (lowest buffer index) first (R80, R53): five digits are format
`D5`, five characters are format `C5`. -/
structure Five (α : Type) where
  x0 : α
  x1 : α
  x2 : α
  x3 : α
  x4 : α
deriving DecidableEq, Repr

/-- Format `D5` (R80). -/
abbrev DigitGroup := Five Digit

/-- Format `C5` (R80). -/
abbrev CharGroup := Five Byte

/-- The transcript statements of R94. -/
inductive Stmt where
  /-- `LOADX h0 … h(n-1)` -/
  | loadx (units : List Byte)
  /-- `LOADS "text"` -/
  | loads (text : String)
  /-- `SETLEN n` -/
  | setlen (n : Nat)
  /-- `ENCODE` -/
  | encode
  /-- `DECODE` -/
  | decode
  /-- `WAIT` -/
  | wait
  /-- `EXPECT reg = v`, the register by its number (R36) -/
  | expect (r : Nat) (v : Nat)
  /-- `EXPECTX h0 … h(m-1)` -/
  | expectx (units : List Byte)
  /-- `EXPECTS "text"` -/
  | expects (text : String)
  /-- `COPY` -/
  | copy
deriving DecidableEq, Repr

/-- One move of the environment. The list of pending moves in State says which agent moves next (log 6). -/
inductive Move where
  /-- The host reads index `i` of a space (R36, R50). -/
  | read (space : Space) (i : Nat)
  /-- The host writes `v` to index `i` of a space (R36, R50); bits of `v` above the width are ignored,
  by R36 for a register and by log 23 for a unit of `IN`. -/
  | write (space : Space) (i : Nat) (v : Nat)
  /-- The host polls `STATE` until it is not BUSY (R94 `WAIT`); CORE takes a step between two polls. -/
  | wait
  /-- CORE gets a turn: its next step if it is BUSY, nothing otherwise (R204, R225). -/
  | core
  /-- The reset input (R220). -/
  | reset
  /-- The host issues the operation `word` selects and waits for its end: it writes `word` to `OP`, writes
  `START` and polls `STATE` (R94 `ENCODE` or `DECODE`, then `WAIT`; R95), as one atomic step (R231). -/
  | call (word : Byte)
  /-- The host takes up a transcript statement: its accesses, made in the state of its turn, come before the moves
  still pending (R94). -/
  | stmt (t : Stmt)
deriving DecidableEq, Repr

end Sys2Proof
end

