-- ==== Sys2Proof/WellFormed.lean ====
section
/-! DEFINITION. Which terms of the syntax are legal: an instance's parameters (R7, R8), a move's index (R36, R50),
a transcript's register number and lengths (R94). Both operations have no operand, so every `Instr` is legal. -/

namespace Sys2Proof

/-- The constraints on the open parameters: `LEN_BITS >= 3` (R7), `IN_CAP` and `OUT_CAP` at most
`2^LEN_BITS - 1` (R8). -/
abbrev Params.Valid (p : Params) : Prop :=
  3 ≤ p.lenBits ∧ p.inCap ≤ 2 ^ p.lenBits - 1 ∧ p.outCap ≤ 2 ^ p.lenBits - 1

/-- An operation is legal whatever it is: `OP` has one bit and both its values are defined (R90), and there are
no operand bits to check (R83). -/
def Instr.wf : Instr → Bool
  | .encode => true
  | .decode => true

/-- Index `i` exists in the space: registers 0 to 6 (R36), units 0 to the capacity less one (R50). -/
def Space.has (p : Params) : Space → Nat → Bool
  | .regs, i => decide (i < 7)
  | .inBuf, i => decide (i < p.inCap)
  | .outBuf, i => decide (i < p.outCap)

/-- A statement is legal when every register and unit it names exists (R36, R50) and every length it writes fits
`LEN_IN` (R24). A `LOADX` or `LOADS` of more than `IN_CAP` units names units that do not exist: that it is not legal is
the model's choice (DESIGN CHOICE, log 24); and so is that a quoted character may have a code point up to 255, where the
spec gives codes for ASCII only (DESIGN CHOICE, log 26). A `COPY` names what the state holds and is always legal. -/
def Stmt.wf (p : Params) : Stmt → Bool
  | .loadx us => decide (us.length ≤ p.inCap)
  | .loads t => decide (t.toList.length ≤ p.inCap) && t.toList.all (fun c => decide (c.toNat < 256))
  | .setlen n => decide (n < 2 ^ p.lenBits)
  | .encode => true
  | .decode => true
  | .wait => true
  | .expect r _ => Space.regs.has p r
  | .expectx us => decide (us.length ≤ p.outCap)
  | .expects t => decide (t.toList.length ≤ p.outCap) && t.toList.all (fun c => decide (c.toNat < 256))
  | .copy => true

/-- A move is legal when the index it names exists (R36, R50), or the statement it takes up is legal. -/
def Move.wf (p : Params) : Move → Bool
  | .read sp i => sp.has p i
  | .write sp i _ => sp.has p i
  | .wait => true
  | .core => true
  | .reset => true
  | .call _ => true
  | .stmt t => t.wf p

end Sys2Proof
end

