-- ==== Sys2Proof/Decode.lean ====
section
/-! DEFINITION. Decoding and encoding the operation-select word (R90). The word is what the host writes to the
1-bit register `OP`; a written value's bits above the register's width are ignored (R36, R23). -/

namespace Sys2Proof

/-- The operation the 1-bit register `OP` selects: 0 is ENCODE, 1 is DECODE (R90). -/
def decodeOp (op : BitVec 1) : Instr :=
  if op = 0#1 then .encode else .decode

/-- The value of `OP` that selects the operation (R90). -/
def opOf : Instr → BitVec 1
  | .encode => 0#1
  | .decode => 1#1

/-- What a written value leaves in `OP`: its bit 0 (R23, R36). -/
def opBits (v : Nat) : BitVec 1 := BitVec.ofNat 1 v

/-- The operation a whole written byte selects: that of its bit 0 (R36, R90). -/
def decodeWord (w : Byte) : Instr := decodeOp (opBits w.toNat)

/-- Why a byte sequence is no operation: R90 leaves no illegal value, so only the empty one is none. -/
inductive DecodeError where
  /-- There is no byte to decode. Safe: the decoder refuses. -/
  | noWord
deriving DecidableEq, Repr

/-- Decode one operation from the front of a byte sequence, one byte each; total on any bytes. -/
def decodeInstr : List Byte → Except DecodeError (Instr × List Byte)
  | [] => .error .noWord
  | w :: rest => .ok (decodeWord w, rest)

/-- The byte of an operation: `OP` in bit 0, zero above (opcode_table.json `match` and `mask`; R90). -/
def encodeInstr (i : Instr) : List Byte := [(opOf i).zeroExtend 8]

/-- The bytes of a table word of `nbits` bits, first byte first: at least one byte, the bits above `nbits` zero. -/
def tableBytes (nbits w : Nat) : List Byte := [BitVec.ofNat 8 (w % 2 ^ nbits)]

/-- The instruction the decoder reads from an instruction whose bits are `w`, numbered as
spec/opcode_table.json numbers them. -/
def decodeTableWord (nbits w : Nat) : Option Instr :=
  match decodeInstr (tableBytes nbits w) with
  | .ok (i, _) => some i
  | .error _ => none

end Sys2Proof
end

