-- ==== Sys2Proof/Machine/State.lean ====
section
/-! DEFINITION. The state of one instance of CORE (10_state R23 to R35), as plain data, the reasons a step can
stop, and the state after reset (R42). The ROMs are constants (R22, R41) and stand in Machine/Alphabet.lean. -/

namespace Sys2Proof.Machine

/-- `STATE` (R26). -/
inductive Status where
  /-- 0: no operation since reset. -/
  | idle
  /-- 1: an operation has started and not ended. -/
  | busy
  /-- 2: the last operation ended without error. -/
  | done
  /-- 3: the last operation ended with an error. -/
  | error
deriving DecidableEq, Repr

/-- `ERR` (R27). Code 3 "is never produced" and has no constructor (92_eei_decisions D29). -/
inductive ErrKind where
  /-- 0: no error. -/
  | none
  /-- 1: `InvalidCharacter` (R191). -/
  | invalidCharacter
  /-- 2: `InputTooLarge` (R192). -/
  | inputTooLarge
deriving DecidableEq, Repr

/-- A buffer's written units as (index, unit) pairs, indices strictly rising. An unlisted unit has no value here:
it has not been written since reset (log 3). -/
abbrev Memory := List Host.Cell

/-- Why the machine stops. None is an error of the spec: its two errors are next states with `STATE` = ERROR (R195). -/
inductive Fault where
  /-- Raised by a host access to a register number or unit that does not exist (R36, R50). Safe: the model stops
  where the spec says nothing. -/
  | noSuchUnit (space : Space) (i : Nat)
  /-- Raised by a group step whose index lies outside `IN` or `OUT`, which R57 says never happens. Safe: no state
  that meets the invariant raises it. -/
  | coreIndexOutOfRange
  /-- Raised by CORE when it is BUSY and `GRP` is above `NGRP`, for which R102 and R132 give no step and which R31
  says never happens. Safe: no state that meets the invariant raises it. -/
  | noCoreStep
deriving DecidableEq, Repr

/-- Why a step has no meaning. -/
inductive Refusal where
  /-- Raised by an arm of exec that has no meaning yet. Safe: the model stops. -/
  | notModelled (mnemonic : String)
  /-- Raised by a host write of `OP`, `LEN_IN`, `START` or `IN`, or the issue of an operation, while `STATE` is BUSY:
  "this spec gives it no meaning" and a model treats it "as a refusal that marks the whole run" (R227, U5). Safe: the
  model stops. -/
  | hostWriteWhileBusy (space : Space) (i : Nat)
deriving DecidableEq, Repr

/-- The state of one instance. The length registers are naturals kept below `2^LEN_BITS`, because `LEN_BITS` is a
parameter (log 15). -/
structure State where
  /-- The instance's parameters (R7, R8): no step changes them (R41; log 1). -/
  params : Params
  /-- `OP`, register 0 (R23). -/
  op : BitVec 1
  /-- `LEN_IN`, register 1 (R24). -/
  lenIn : Nat
  /-- `STATE`, register 3 (R26). -/
  status : Status
  /-- `ERR`, register 4 (R27). -/
  err : ErrKind
  /-- `ERR_IDX`, register 5 (R28). -/
  errIdx : Nat
  /-- `LEN_OUT`, register 6 (R29). -/
  lenOut : Nat
  /-- `ACC` (R30). -/
  acc : Acc
  /-- `GRP` (R31). -/
  grp : Nat
  /-- `NGRP` (R32). -/
  ngrp : Nat
  /-- `PAD` (R33). -/
  pad : BitVec 3
  /-- `IN` (R34). -/
  inBuf : Memory
  /-- `OUT` (R35). -/
  outBuf : Memory
  /-- The MODEL's own: the environment's pending moves, oldest first (log 6). -/
  queue : List Move
  /-- The MODEL's own: what the last host read returned. -/
  reply : Option Nat
  /-- The MODEL's own: a statement EXPECT, EXPECTX or EXPECTS found another value, so "the program is wrong" (R94). -/
  wrong : Bool
  /-- The MODEL's own: how many resets the instance has seen; it indexes the free contents of `IN` (log 3). -/
  epoch : Nat
  /-- The MODEL's own: how many START, CORE and reset steps were taken; it indexes the other free values (log 4). -/
  tick : Nat
deriving DecidableEq, Repr

/-- An instance with the given parameters right after reset (R42). `ACC`, `GRP`, `NGRP` and `PAD` have no reset value
in the spec: 0 is a DESIGN CHOICE (log 2). `IN` and `OUT` list nothing (log 3). -/
def State.resetWith (p : Params) : State where
  params := p
  op := 0#1
  lenIn := 0
  status := .idle
  err := .none
  errIdx := 0
  lenOut := 0
  acc := 0#32
  grp := 0
  ngrp := 0
  pad := 0#3
  inBuf := []
  outBuf := []
  queue := []
  reply := none
  wrong := false
  epoch := 0
  tick := 0

/-- The machine right after reset (R42), in configuration `REF` (DESIGN CHOICE, log 1). -/
def State.reset : State := State.resetWith Params.ref

end Sys2Proof.Machine
end

