-- ==== Sys2Proof/Machine/Alphabet.lean ====
section
/-! DEFINITION. The alphabet: the two constant tables (R20 to R22, R86, R87) and the lookup functions every other
rule uses (R88). 68 of the 85 entries are general knowledge in the spec itself (R86, G1; PRESUMED, log 13). -/

namespace Sys2Proof.Machine

/-- `ENC_ROM` (R20), the contents of R86: entry `d` is the character of digit `d`. Digits 0 to 9, 10 to 35, 36 to 61
and 62 to 84 in turn. -/
def encRom : List Byte :=
  [0x30#8, 0x31#8, 0x32#8, 0x33#8, 0x34#8, 0x35#8, 0x36#8, 0x37#8, 0x38#8, 0x39#8] ++
  [0x61#8, 0x62#8, 0x63#8, 0x64#8, 0x65#8, 0x66#8, 0x67#8, 0x68#8, 0x69#8, 0x6A#8] ++
  [0x6B#8, 0x6C#8, 0x6D#8, 0x6E#8, 0x6F#8, 0x70#8, 0x71#8, 0x72#8, 0x73#8, 0x74#8] ++
  [0x75#8, 0x76#8, 0x77#8, 0x78#8, 0x79#8, 0x7A#8, 0x41#8, 0x42#8, 0x43#8, 0x44#8] ++
  [0x45#8, 0x46#8, 0x47#8, 0x48#8, 0x49#8, 0x4A#8, 0x4B#8, 0x4C#8, 0x4D#8, 0x4E#8] ++
  [0x4F#8, 0x50#8, 0x51#8, 0x52#8, 0x53#8, 0x54#8, 0x55#8, 0x56#8, 0x57#8, 0x58#8] ++
  [0x59#8, 0x5A#8, 0x2E#8, 0x2D#8, 0x3A#8, 0x2B#8, 0x3D#8, 0x5E#8, 0x21#8, 0x2F#8] ++
  [0x2A#8, 0x3F#8, 0x26#8, 0x3C#8, 0x3E#8, 0x28#8, 0x29#8, 0x5B#8, 0x5D#8, 0x7B#8] ++
  [0x7D#8, 0x40#8, 0x25#8, 0x24#8, 0x23#8]

/-- `ENC_ROM` has 85 entries, index 0 to 84 (R20). -/
theorem encRom_length : encRom.length = 85 := by decide

/-- An entry of `DEC_ROM`: "a pair `(valid, digit)`" (R21). -/
structure DecEntry where
  valid : Bool
  digit : Digit
deriving DecidableEq, Repr

/-- The entry of a code that is in the alphabet (R21). -/
def present (d : Digit) : DecEntry := ⟨true, d⟩

/-- The entry `(0, 0)` of a code that is not in the alphabet (R21); its digit "is never used by any rule". -/
def absent : DecEntry := ⟨false, 0⟩

/-- `DEC_ROM` (R21), the contents of R87: entry `j` describes character code `j + 32`. Eight codes a row, from 32. -/
def decRom : List DecEntry :=
  [absent, present 68, absent, present 84, present 83, present 82, present 72, absent] ++
  [present 75, present 76, present 70, present 65, absent, present 63, present 62, present 69] ++
  [present 0, present 1, present 2, present 3, present 4, present 5, present 6, present 7] ++
  [present 8, present 9, present 64, absent, present 73, present 66, present 74, present 71] ++
  [present 81, present 36, present 37, present 38, present 39, present 40, present 41, present 42] ++
  [present 43, present 44, present 45, present 46, present 47, present 48, present 49, present 50] ++
  [present 51, present 52, present 53, present 54, present 55, present 56, present 57, present 58] ++
  [present 59, present 60, present 61, present 77, absent, present 78, present 67, absent] ++
  [absent, present 10, present 11, present 12, present 13, present 14, present 15, present 16] ++
  [present 17, present 18, present 19, present 20, present 21, present 22, present 23, present 24] ++
  [present 25, present 26, present 27, present 28, present 29, present 30, present 31, present 32] ++
  [present 33, present 34, present 35, present 79, absent, present 80, absent, absent]

/-- `DEC_ROM` has 96 entries, index 0 to 95 (R10, R21). -/
theorem decRom_length : decRom.length = 96 := by decide

/-- `char_of(d) = ENC_ROM[d]` (R88). -/
def charOf (d : Digit) : Byte := encRom[d.val]'(by rw [encRom_length]; exact d.isLt)

/-- The entry of `DEC_ROM` for a code: "A code outside 32 to 127 is invalid without a table access" (R88). -/
def decEntry (c : Byte) : DecEntry :=
  if 32 ≤ c.toNat ∧ c.toNat ≤ 127 then decRom.getD (c.toNat - 32) absent else absent

/-- `char_valid(c)` (R88), total on all 256 codes. -/
def charValid (c : Byte) : Bool := (decEntry c).valid

/-- `digit_of(c) = DEC_ROM[c - 32].digit` (R88), "used only when char_valid(c)". -/
def digitOf (c : Byte) : Digit := (decEntry c).digit

end Sys2Proof.Machine
end

