-- ==== Sys2Proof/Machine/Ops.lean ====
section
/-! DEFINITION. The shared operations: truncation to `LEN_BITS` (R24, R36), the buffers (R50, R51), the error entry
(R195), the reset step (R220), and running a unit to the end of its operation (R225, R231). -/

namespace Sys2Proof.Machine

/-- What a step or a meaning answers. -/
abbrev Answer := Host.Outcome State Fault Refusal

/-- `trunc_LEN_BITS(v)` of 00_scope section 4: what a value leaves in a length register (R24, R28, R29, R31, R32). -/
def trunc (p : Params) (v : Nat) : Nat := v % 2 ^ p.lenBits

/-- The listed unit at index `i`, or nothing where no unit has been written since reset (log 3). -/
def Memory.read : Memory → Nat → Option Byte
  | [], _ => none
  | (a, v) :: m, i => if a = i then some v else Memory.read m i

/-- Write one unit, keeping indices strictly rising (R51). -/
def Memory.write : Memory → Nat → Byte → Memory
  | [], i, v => [(i, v)]
  | (a, w) :: m, i, v =>
    if i < a then (i, v) :: (a, w) :: m
    else if i = a then (i, v) :: m
    else (a, w) :: Memory.write m i v

/-- `MemWrite(space, addr, n, v)` of 00_scope section 4: consecutive units from `i` up, one at a time (R51). -/
def Memory.writeUnits : Memory → Nat → List Byte → Memory
  | m, _, [] => m
  | m, i, v :: vs => Memory.writeUnits (m.write i v) (i + 1) vs

/-- The canonical form: indices strictly rising. An unlisted unit has no value, so no entry can equal one. -/
abbrev Memory.wf (m : Memory) : Prop := m.Pairwise (fun a b => a.1 < b.1)

/-- `raise <Error>(info)`, the one error entry (R195): "Nothing else changes". There is no saved context, mode or
handler, and no return operation (R196): the next START or reset overwrites what this writes. -/
def raiseError (e : ErrKind) (idx : Nat) (s : State) : State :=
  { s with err := e, errIdx := trunc s.params idx, lenOut := 0, status := .error, tick := s.tick + 1 }

/-- Reset in any state (R220): every register the table of R42 gives a value takes it, "unspecified" ones take free
values (U1; DESIGN CHOICE, log 11), and no unit of `IN` or `OUT` is written any more (U2, U4). The parameters stay
(R41); the environment's moves, what it last read and its verdict on its program are not the core's. -/
def resetStep (s : State) : State :=
  { State.resetWith s.params with
    acc := Config.freeAcc s.tick
    grp := trunc s.params (Config.freeGrp s.tick)
    ngrp := trunc s.params (Config.freeNgrp s.tick)
    pad := Config.freePad s.tick
    queue := s.queue
    reply := s.reply
    wrong := s.wrong
    epoch := s.epoch + 1
    tick := s.tick + 1 }

/-- Run a unit's steps, at most `fuel` of them, until the operation has ended (R225). An operation that has not ended
by then breaks the bound of R225 and stops. -/
def runUnit (unitStep : State → Answer) : Nat → State → Answer
  | 0, s => if s.status = .busy then .fault .noCoreStep else .next s
  | fuel + 1, s =>
    if s.status = .busy then
      match unitStep s with
      | .next t => runUnit unitStep fuel t
      | .fault f => .fault f
      | .refused r => .refused r
    else .next s

end Sys2Proof.Machine
end

