-- ==== Sys2Proof/Machine/Operands.lean ====
section
/-! DEFINITION. The operands of the two operations: the group counts of `LEN_IN` (R32, R33, R179), the units of `IN`
and `OUT` (R34, R35), the group formats (R80), padding (R56) and the index range of a group step (R57). -/

namespace Sys2Proof

/-- The five things of a group, first one first. -/
def Five.toList {α : Type} (x : Five α) : List α := [x.x0, x.x1, x.x2, x.x3, x.x4]

/-- The same change to each of the five. -/
def Five.map {α β : Type} (f : α → β) (x : Five α) : Five β := ⟨f x.x0, f x.x1, f x.x2, f x.x3, f x.x4⟩

/-- The four units of a byte group, lowest index first (R52). -/
def ByteGroup.toList (b : ByteGroup) : List Byte := [b.b0, b.b1, b.b2, b.b3]

end Sys2Proof

namespace Sys2Proof.Machine

/-- Units in one input group: 4 bytes or 5 characters (R9, R55). -/
def inSize : Instr → Nat
  | .encode => 4
  | .decode => 5

/-- Units in one output group: 5 characters or 4 bytes (R9, R55). -/
def outSize : Instr → Nat
  | .encode => 5
  | .decode => 4

/-- `G`: the number of groups, `ceil(n / 4)` or `ceil(n / 5)` (R32, R224). -/
def groupsOf (i : Instr) (n : Nat) : Nat := ceilQuot n (inSize i)

/-- `P`: the pad size, `(4 - n mod 4) mod 4` or `(5 - n mod 5) mod 5` (R33, R224). -/
def padOf (i : Instr) (n : Nat) : Nat := (inSize i - n % inSize i) % inSize i

/-- The length of the result, `5*G - pad` or `4*G - pad` (R100, R130). -/
def resultLen (i : Instr) (n : Nat) : Nat := outSize i * groupsOf i n - padOf i n

/-- The index of unit `k` of input group `g`: `4g + k` or `5g + k` (R55, R103, R134). -/
def inIndex (i : Instr) (g k : Nat) : Nat := inSize i * g + k

/-- The index of unit `k` of output group `g`: `5g + k` or `4g + k` (R55, R107, R140). -/
def outIndex (i : Instr) (g k : Nat) : Nat := outSize i * g + k

/-- `IN[i]`. A unit the host has not written since reset has some value the spec leaves open (U2, R42): a free
value, fixed until the next reset (log 3). -/
def State.inUnit (s : State) (i : Nat) : Byte := (s.inBuf.read i).getD (Config.freeIn s.epoch i)

/-- `OUT[i]` as a host read finds it inside the result. CORE has written every such unit; the free value stands for
the case that it has not, which no state that meets the invariant shows. -/
def State.outUnit (s : State) (i : Nat) : Byte :=
  (s.outBuf.read i).getD (BitVec.ofNat 8 (Config.freeRead s.tick .outBuf i))

/-- The input of the operation, `IN[0 .. LEN_IN)` (R11, R34). -/
def State.input (s : State) : List Byte := (List.range s.lenIn).map s.inUnit

/-- The result in `OUT`, `OUT[0 .. LEN_OUT)` (R11, R35). -/
def State.output (s : State) : List Byte := (List.range s.lenOut).map s.outUnit

/-- The pad byte of ENCODE (R9, R56). -/
def padByte : Byte := 0#8

/-- The pad digit of DECODE: "a value, not a character" (R9, R56, R133). -/
def padDigit : Digit := 84

/-- The value of a byte group: `b0*2^24 + b1*2^16 + b2*2^8 + b3` (R52, R81, R101). The weights stand first so that
no proof unfolds a product by a large literal. -/
def byteValue (b : ByteGroup) : Nat :=
  2 ^ 24 * b.b0.toNat + 2 ^ 16 * b.b1.toNat + 2 ^ 8 * b.b2.toNat + b.b3.toNat

/-- The value of a digit group: `d0*85^4 + d1*85^3 + d2*85^2 + d3*85 + d4`, a natural (R53, R82, R131);
the weights first, as in `byteValue`. -/
def digitValue (d : DigitGroup) : Nat :=
  85 ^ 4 * d.x0.val + 85 ^ 3 * d.x1.val + 85 ^ 2 * d.x2.val + 85 * d.x3.val + d.x4.val

/-- `floor(v / 85^(4-k)) mod 85` (R53, R101, R105). -/
def radixDigit (v k : Nat) : Digit := ⟨v / 85 ^ (4 - k) % 85, Nat.mod_lt _ (by decide)⟩

/-- The five digits of a value, most significant first (R101, R105). -/
def radixDigits (v : Nat) : DigitGroup :=
  ⟨radixDigit v 0, radixDigit v 1, radixDigit v 2, radixDigit v 3, radixDigit v 4⟩

/-- `floor(v / 256^(3-k)) mod 256` (R52, R131). -/
def valueByte (v k : Nat) : Byte := BitVec.ofNat 8 (v / 256 ^ (3 - k) % 256)

/-- The four bytes of a value, most significant first (R131). -/
def valueBytes (v : Nat) : ByteGroup := ⟨valueByte v 0, valueByte v 1, valueByte v 2, valueByte v 3⟩

/-- Every index the group step forms lies in its buffer: each present input unit below `IN_CAP`, each output unit
below `OUT_CAP` (R57). -/
def groupInRange (i : Instr) (s : State) : Bool :=
  decide (min (inIndex i s.grp (inSize i)) s.lenIn ≤ s.params.inCap) &&
  decide (outIndex i s.grp (outSize i) ≤ s.params.outCap)

end Sys2Proof.Machine
end

