-- ==== Sys2Proof/Machine/Flags.lean ====
section
/-! DEFINITION. The status an operation leaves. CORE has no condition codes (R38): its only status is `STATE`, `ERR`,
`ERR_IDX` and `LEN_OUT`. Here are their codes (R26, R27), the `InputTooLarge` condition (R192) and the writes of START
(R224) and FINISH (R109, R142). -/

namespace Sys2Proof.Machine

/-- The code of `STATE` (R26). -/
def Status.code : Status → BitVec 2
  | .idle => 0#2
  | .busy => 1#2
  | .done => 2#2
  | .error => 3#2

/-- The code of `ERR` (R27). -/
def ErrKind.code : ErrKind → BitVec 2
  | .none => 0#2
  | .invalidCharacter => 1#2
  | .inputTooLarge => 2#2

/-- The `InputTooLarge` condition on `n = LEN_IN`: `n > IN_CAP`, or the untruncated output exceeds `OUT_CAP`, on
exact naturals (R192). -/
def tooLarge (p : Params) (i : Instr) (n : Nat) : Bool :=
  decide (p.inCap < n) || decide (p.outCap < outSize i * groupsOf i n)

/-- What `InputTooLarge` at START leaves in the internal registers: R224 says "GRP, NGRP, PAD, ACC unspecified", so
free values (U1; DESIGN CHOICE, log 12). -/
def freeInternals (s : State) : State :=
  { s with
    acc := Config.freeAcc s.tick
    grp := trunc s.params (Config.freeGrp s.tick)
    ngrp := trunc s.params (Config.freeNgrp s.tick)
    pad := Config.freePad s.tick }

/-- START finds the operands fit: the operation begins (R224). -/
def beginOperation (i : Instr) (s : State) : State :=
  { s with
    err := .none
    errIdx := 0
    lenOut := 0
    ngrp := trunc s.params (groupsOf i s.lenIn)
    pad := BitVec.ofNat 3 (padOf i s.lenIn)
    grp := 0
    status := .busy
    tick := s.tick + 1 }

/-- START of operation `i` in IDLE, DONE or ERROR (R224), as one step. The clearing of `ERR`, `ERR_IDX` and `LEN_OUT`
that comes first in R224 is overwritten by the error entry on the one branch and stands in `beginOperation` on the other. -/
def startOperation (i : Instr) (s : State) : State :=
  if tooLarge s.params i s.lenIn then raiseError .inputTooLarge 0 (freeInternals s) else beginOperation i s

/-- FINISH, when `GRP = NGRP` (R109, R142): `LEN_OUT` takes the untruncated count less `PAD`. -/
def finishOperation (i : Instr) (s : State) : State :=
  { s with
    lenOut := trunc s.params (outSize i * s.ngrp - s.pad.toNat)
    err := .none
    errIdx := 0
    status := .done
    tick := s.tick + 1 }

/-- STORE and NEXT of a group step that raised nothing: `ACC` holds the group's value, the group's units go to `OUT`
at the group's place, and `GRP <- GRP + 1` (R104, R107, R108; R137, R140, R141). -/
def storeGroup (i : Instr) (a : Acc) (units : List Byte) (s : State) : State :=
  { s with
    acc := a
    outBuf := s.outBuf.writeUnits (outIndex i s.grp 0) units
    grp := trunc s.params (s.grp + 1)
    tick := s.tick + 1 }

/-- CORE's next step while BUSY: the group step when `GRP < NGRP`, FINISH when `GRP = NGRP` (R102, R132). -/
def stepSequence (i : Instr) (groupStep : State → Answer) (s : State) : Answer :=
  if s.grp < s.ngrp then groupStep s
  else if s.grp = s.ngrp then .next (finishOperation i s)
  else .fault .noCoreStep

/-- A whole operation from its issue to its end (R94, R95, R231): `OP` is written, START is written, and the unit runs
to DONE or ERROR. While BUSY the host has no such move (R227, U5). -/
def runOperation (i : Instr) (unitStep : State → Answer) (s : State) : Answer :=
  if s.status = .busy then .refused (.hostWriteWhileBusy .regs 0)
  else runUnit unitStep (groupsOf i s.lenIn + 1) (startOperation i { s with op := opOf i })

end Sys2Proof.Machine
end

