-- ==== Sys2Proof/Machine/Decoder.lean ====
section
/-! DEFINITION. The unit DEC: the steps of 41_decoder section 2 and the meaning of DECODE. -/

namespace Sys2Proof.Machine

/-- Character `i` of the input: present below `LEN_IN`, absent at or beyond it, with no access to `IN` there (R134). -/
def decChar (s : State) (i : Nat) : Option Byte := if i < s.lenIn then some (s.inUnit i) else none

/-- DEC.FETCH (R134): the five positions of group `GRP`. -/
def decFetch (s : State) : Five (Option Byte) :=
  ⟨decChar s (inIndex .decode s.grp 0), decChar s (inIndex .decode s.grp 1), decChar s (inIndex .decode s.grp 2),
   decChar s (inIndex .decode s.grp 3), decChar s (inIndex .decode s.grp 4)⟩

/-- The validation of DEC.LOOKUP (R135): the index of the first present character, in ascending order from index `i`,
that is not in the alphabet. -/
def firstInvalid : Nat → List (Option Byte) → Option Nat
  | _, [] => none
  | i, none :: cs => firstInvalid (i + 1) cs
  | i, some c :: cs => if charValid c then firstInvalid (i + 1) cs else some i

/-- The digit of a position once every present character is valid: its table digit (DEC.LOOKUP, R135), or the pad
digit where it is absent (DEC.PADFILL, R136; R133). -/
def decDigit : Option Byte → Digit
  | some c => digitOf c
  | none => padDigit

/-- DEC.ACCUM (R137): the exact value modulo `2^32`. -/
def decAccum (d : DigitGroup) : Acc := BitVec.ofNat 32 (digitValue d)

/-- DEC.SPLIT (R139): `y0 = ACC[31:24]`, `y1 = ACC[23:16]`, `y2 = ACC[15:8]`, `y3 = ACC[7:0]`. -/
def decSplit (a : Acc) : ByteGroup :=
  ⟨a.extractLsb' 24 8, a.extractLsb' 16 8, a.extractLsb' 8 8, a.extractLsb' 0 8⟩

/-- The group step of DECODE: R134 to R141 in that order, as one step, or `InvalidCharacter` at R135 (R132). -/
def decGroupStep (s : State) : Answer :=
  if groupInRange .decode s then
    match firstInvalid (inIndex .decode s.grp 0) (decFetch s).toList with
    | some i => .next (raiseError .invalidCharacter i s)
    | none =>
      .next (storeGroup .decode (decAccum ((decFetch s).map decDigit))
        (decSplit (decAccum ((decFetch s).map decDigit))).toList s)
  else .fault .coreIndexOutOfRange

/-- CORE's next step while BUSY with `OP` = 1 (R132). -/
def decStep (s : State) : Answer := stepSequence .decode decGroupStep s

/-- DECODE (R130), by the reference machine (R132 to R145). -/
def execDecode (s : State) : Answer := runOperation .decode decStep s

end Sys2Proof.Machine
end

