-- ==== Sys2Proof/Machine/Encoder.lean ====
section
/-! DEFINITION. The unit ENC: the steps of 40_encoder section 2 and the meaning of ENCODE. -/

namespace Sys2Proof.Machine

/-- Byte `i` of the padded input: `IN[i]` below `LEN_IN`, the pad byte at or beyond it, with no access to `IN` there
(R56, R103). -/
def encByte (s : State) (i : Nat) : Byte := if i < s.lenIn then s.inUnit i else padByte

/-- ENC.FETCH (R103): the four bytes of group `GRP`. -/
def encFetch (s : State) : ByteGroup :=
  ⟨encByte s (inIndex .encode s.grp 0), encByte s (inIndex .encode s.grp 1),
   encByte s (inIndex .encode s.grp 2), encByte s (inIndex .encode s.grp 3)⟩

/-- ENC.ASSEMBLE (R104, R81): the value of `ACC`, big-endian. -/
def encAssemble (b : ByteGroup) : Acc := BitVec.ofNat 32 (byteValue b)

/-- ENC.RADIX (R105): the five digits of `ACC`. -/
def encRadix (a : Acc) : DigitGroup := radixDigits a.toNat

/-- ENC.SUBST (R106): `c_k = ENC_ROM[d_k]`. -/
def encSubst (d : DigitGroup) : CharGroup := d.map charOf

/-- The group step of ENCODE: R103 to R108 in that order, as one step (R102). -/
def encGroupStep (s : State) : Answer :=
  if groupInRange .encode s then
    .next (storeGroup .encode (encAssemble (encFetch s)) (encSubst (encRadix (encAssemble (encFetch s)))).toList s)
  else .fault .coreIndexOutOfRange

/-- CORE's next step while BUSY with `OP` = 0 (R102). -/
def encStep (s : State) : Answer := stepSequence .encode encGroupStep s

/-- ENCODE (R100), by the reference machine (R102 to R110). -/
def execEncode (s : State) : Answer := runOperation .encode encStep s

end Sys2Proof.Machine
end

