-- ==== Sys2Proof/Machine/Codec.lean ====
section
/-! DEFINITION. The two operations as total functions of their operands (R100, R101, R130, R131), and the equivalent
forms of the radix conversions (R111, R147). The machine does not use this file: it is what the machine is said to
compute (R110, R145). -/

namespace Sys2Proof.Machine

/-- What an operation ends in, as a function of its operands (R40, R232). -/
inductive Result where
  /-- `STATE` = DONE with this `OUT[0 .. LEN_OUT)`. -/
  | done (units : List Byte)
  /-- `STATE` = ERROR with this `ERR` and `ERR_IDX`. -/
  | error (e : ErrKind) (idx : Nat)
deriving DecidableEq, Repr

/-- `enc_group` (R101). -/
def encGroup (b : ByteGroup) : CharGroup := (radixDigits (byteValue b)).map charOf

/-- `dec_group` (R131). -/
def decGroup (d : DigitGroup) : ByteGroup := valueBytes (digitValue d)

/-- `byte(i)` of R100 for input `bs`: the byte, or 0 at and beyond the length. -/
def padByteAt (bs : List Byte) (i : Nat) : Byte := bs.getD i padByte

/-- `dig(i)` of R133 for input `cs`: the character's digit, or 84 at and beyond the length. -/
def padDigitAt (cs : List Byte) (i : Nat) : Digit :=
  match cs[i]? with
  | some c => digitOf c
  | none => padDigit

/-- The byte group `g` of the padded input (R100). -/
def byteGroupAt (bs : List Byte) (g : Nat) : ByteGroup :=
  ⟨padByteAt bs (4 * g), padByteAt bs (4 * g + 1), padByteAt bs (4 * g + 2), padByteAt bs (4 * g + 3)⟩

/-- The digit group `g` of the padded input (R130). -/
def digitGroupAt (cs : List Byte) (g : Nat) : DigitGroup :=
  ⟨padDigitAt cs (5 * g), padDigitAt cs (5 * g + 1), padDigitAt cs (5 * g + 2), padDigitAt cs (5 * g + 3),
   padDigitAt cs (5 * g + 4)⟩

/-- `full` of R100: every group's five characters. -/
def encodeFull (bs : List Byte) : List Byte :=
  (List.range (groupsOf .encode bs.length)).flatMap fun g => (encGroup (byteGroupAt bs g)).toList

/-- `full` of R130: every group's four bytes. -/
def decodeFull (cs : List Byte) : List Byte :=
  (List.range (groupsOf .decode cs.length)).flatMap fun g => (decGroup (digitGroupAt cs g)).toList

/-- The text of ENCODE: `full[0 .. L)` (R100). -/
def encodeBytes (bs : List Byte) : List Byte := (encodeFull bs).take (resultLen .encode bs.length)

/-- The bytes of DECODE when every character is valid: `full[0 .. L)` (R130). -/
def decodeChars (cs : List Byte) : List Byte := (decodeFull cs).take (resultLen .decode cs.length)

/-- ENCODE as one function of its operands (R100). -/
def encodeResult (p : Params) (bs : List Byte) : Result :=
  if tooLarge p .encode bs.length then .error .inputTooLarge 0 else .done (encodeBytes bs)

/-- DECODE as one function of its operands (R130), errors in the order of R194. -/
def decodeResult (p : Params) (cs : List Byte) : Result :=
  if tooLarge p .decode cs.length then .error .inputTooLarge 0
  else match cs.findIdx? (fun c => !charValid c) with
    | some i => .error .invalidCharacter i
    | none => .done (decodeChars cs)

/-- The operation's result as one function of its operands (R100, R130). -/
def opResult (p : Params) : Instr → List Byte → Result
  | .encode, bs => encodeResult p bs
  | .decode, cs => decodeResult p cs

/-- Form (b) of ENC.RADIX (R111): least significant digit first by repeated division. -/
def radixByDivision (v : Nat) : DigitGroup :=
  let dig (x : Nat) : Digit := ⟨x % 85, Nat.mod_lt _ (by decide)⟩
  let v4 := v
  let v3 := v4 / 85
  let v2 := v3 / 85
  let v1 := v2 / 85
  let v0 := v1 / 85
  ⟨dig v0, dig v1, dig v2, dig v3, dig v4⟩

/-- Form (c) of ENC.RADIX (R111): most significant digit first by repeated remainder; each quotient is a natural. -/
def radixByRemainder (v : Nat) : Five Nat :=
  let v1 := v % 85 ^ 4
  let v2 := v1 % 85 ^ 3
  let v3 := v2 % 85 ^ 2
  let v4 := v3 % 85
  ⟨v / 85 ^ 4, v1 / 85 ^ 3, v2 / 85 ^ 2, v3 / 85, v4⟩

/-- Form (b) of DEC.ACCUM (R147): Horner's form, reduced at the end. -/
def accumHorner (d : DigitGroup) : Acc :=
  BitVec.ofNat 32 (d.toList.foldl (fun v x => v * 85 + x.val) 0)

/-- Form (c) of DEC.ACCUM (R147): Horner's form in a 32-bit register that wraps at every step. -/
def accumWrapping (d : DigitGroup) : Acc :=
  d.toList.foldl (fun v x => v * 85#32 + BitVec.ofNat 32 x.val) 0#32

end Sys2Proof.Machine
end

