-- ==== Sys2Proof/Machine/Host.lean ====
section
/-! DEFINITION. The host interface: what a read returns and what a write does in each state (R36, R50, R227), START
(R25, R224), CORE's turn (R225), and WAIT (R94). -/

namespace Sys2Proof.Machine

/-- CORE's next step while BUSY, by the unit `OP` selects (R102, R132, R225). -/
def coreStep (s : State) : Answer :=
  match decodeOp s.op with
  | .encode => encStep s
  | .decode => decStep s

/-- CORE's turn: its next step if it is BUSY; otherwise it "does nothing and keeps all its state" (R204, R225). -/
def coreTurn (s : State) : Answer := if s.status = .busy then coreStep s else .next s

/-- What register `r` holds as a host read shows it: bits above its width are 0, and START reads 0 (R25, R36). -/
def regValue (s : State) : Nat → Nat
  | 0 => s.op.toNat
  | 1 => s.lenIn
  | 2 => 0
  | 3 => s.status.code.toNat
  | 4 => s.err.code.toNat
  | 5 => s.errIdx
  | 6 => s.lenOut
  | _ => 0

/-- The width of register `r` (R36). -/
def regWidth (p : Params) : Nat → Nat
  | 0 => 1
  | 1 => p.lenBits
  | 2 => 0
  | 3 => 2
  | 4 => 2
  | 5 => p.lenBits
  | 6 => p.lenBits
  | _ => 0

/-- What a host read returns (R227). `STATE` and START read in every state; the rest is the host's only while CORE is
not BUSY, and a read it should not make returns a free value (U6). `OUT` is readable as the result in DONE below
`LEN_OUT`; elsewhere it is an unspecified value, a free one (U3, U4; log 8). -/
def readValue (s : State) : Space → Nat → Nat
  | .regs, r =>
    if s.status = .busy ∧ r ≠ 3 ∧ r ≠ 2 then Config.freeRead s.tick .regs r % 2 ^ regWidth s.params r
    else regValue s r
  | .inBuf, i => if s.status = .busy then Config.freeRead s.tick .inBuf i % 2 ^ 8 else (s.inUnit i).toNat
  | .outBuf, i =>
    if s.status = .done ∧ i < s.lenOut then (s.outUnit i).toNat
    else Config.freeRead s.tick .outBuf i % 2 ^ 8

/-- A host read: it changes nothing of the core (R58). An index that does not exist faults (log 9). -/
def hostRead (sp : Space) (i : Nat) (s : State) : Answer :=
  if sp.has s.params i then .next { s with reply := some (readValue s sp i) }
  else .fault (.noSuchUnit sp i)

/-- A host write to these is ignored in every state: registers 3 to 6 (R36) and `OUT` (R50, R227). -/
def ignoresWrites : Space → Nat → Bool
  | .regs, r => decide (3 ≤ r)
  | .inBuf, _ => false
  | .outBuf, _ => true

/-- A host write of `OP` (R23): the value's bit 0. -/
def writeOp (v : Nat) (s : State) : State := { s with op := opBits v }

/-- A host write of `LEN_IN` (R24): the value's low `LEN_BITS` bits. -/
def writeLenIn (v : Nat) (s : State) : State := { s with lenIn := trunc s.params v }

/-- A host write of `START`, of any value (R25, R224): START of the operation `OP` selects. -/
def writeStart (s : State) : State := startOperation (decodeOp s.op) s

/-- A host write of `IN[i]` (R34): the value's low 8 bits. R36 ignores the bits above a width for the register block only;
that a wider value written to `IN` is cut too is the model's choice (DESIGN CHOICE, log 23). -/
def writeIn (i v : Nat) (s : State) : State := { s with inBuf := s.inBuf.write i (BitVec.ofNat 8 v) }

/-- What an accepted host write does (R36, R50). -/
def acceptWrite (sp : Space) (i v : Nat) (s : State) : State :=
  match sp, i with
  | .regs, 0 => writeOp v s
  | .regs, 1 => writeLenIn v s
  | .regs, 2 => writeStart s
  | .regs, _ => s
  | .inBuf, i => writeIn i v s
  | .outBuf, _ => s

/-- A host write (R36, R227): an index that does not exist faults (log 9), a write to a read-only place is ignored in
every state, a write of `OP`, `LEN_IN`, `START` or `IN` while BUSY is outside the protocol (U5; log 7). -/
def hostWrite (sp : Space) (i v : Nat) (s : State) : Answer :=
  if sp.has s.params i then
    if ignoresWrites sp i then .next s
    else if s.status = .busy then .refused (.hostWriteWhileBusy sp i)
    else .next (acceptWrite sp i v s)
  else .fault (.noSuchUnit sp i)

/-- WAIT (R94): one read of `STATE`. While it returns BUSY, CORE takes its next step and the host polls again: the move
goes back to the front of the queue. R225 gives fairness only; exactly one step of CORE between two polls is the model's choice
(DESIGN CHOICE, log 25). -/
def hostWait (s : State) : Answer :=
  if s.status = .busy then coreStep { s with reply := some (regValue s 3), queue := .wait :: s.queue }
  else .next { s with reply := some (regValue s 3) }

end Sys2Proof.Machine
end

