-- ==== Sys2Proof/Machine/Transcript.lean ====
section
/-! DEFINITION. The transcript notation of host programs (R94) and the two calls (R95): each statement as the list of
host accesses it expands to, what it expects, and the step that takes it up. -/

namespace Sys2Proof.Machine

/-- The codes of the characters between the quotes: the ASCII code of an ASCII character (R5, 00_scope section 4). The spec
gives no other character a code: that one outside ASCII has the low 8 bits of its Unicode code point is the model's choice
(DESIGN CHOICE, log 26). -/
def textUnits (t : String) : List Byte := t.toList.map fun c => BitVec.ofNat 8 c.toNat

/-- `LOADX`: write the units from index 0, then `LEN_IN` (R94). Every write is made in its turn, so that of a load longer
than `IN_CAP` the one to `IN[IN_CAP]` faults, and `LEN_IN` is not written (DESIGN CHOICE, log 24). -/
def loadMoves (us : List Byte) : List Move :=
  us.zipIdx.map (fun x => .write .inBuf x.2 x.1.toNat) ++ [.write .regs 1 us.length]

/-- What a host read of `LEN_OUT` returns (R227). -/
def readLenOut (s : State) : Nat := readValue s .regs 6

/-- What the host reads of `OUT` from index 0 up to the `LEN_OUT` it reads: the result in DONE (R94, R227). -/
def readOutput (s : State) : List Nat := (List.range (readLenOut s)).map (readValue s .outBuf)

/-- The accesses of `EXPECTX` and `EXPECTS`: `LEN_OUT`, then `OUT[0 .. LEN_OUT)` (R94). -/
def outReads (s : State) : List Move :=
  .read .regs 6 :: (List.range (readLenOut s)).map (.read .outBuf)

/-- `COPY`: with `n` the `LEN_OUT` it reads, each unit of `OUT[0 .. n)` is read and what was read is written to the same
index of `IN`, then `LEN_IN <- n` (R94). A unit that "has no place in `IN`" is not moved (program P3 of
95_test_vectors; DEDUCED, log 14). -/
def copyMoves (s : State) : List Move :=
  .read .regs 6 :: (List.range (min (readLenOut s) s.params.inCap)).flatMap
    (fun i => [.read .outBuf i, .write .inBuf i (readValue s .outBuf i)]) ++ [.write .regs 1 (readLenOut s)]

/-- The host accesses of a statement (R94), in the state in which the host takes it up. -/
def stmtMoves (s : State) : Stmt → List Move
  | .loadx us => loadMoves us
  | .loads t => loadMoves (textUnits t)
  | .setlen n => [.write .regs 1 n]
  | .encode => [.write .regs 0 0, .write .regs 2 1]
  | .decode => [.write .regs 0 1, .write .regs 2 1]
  | .wait => [.wait]
  | .expect r _ => [.read .regs r]
  | .expectx _ => outReads s
  | .expects _ => outReads s
  | .copy => copyMoves s

/-- The host reads these units as `OUT[0 .. LEN_OUT)`. -/
def readsUnits (s : State) (us : List Byte) : Bool :=
  readLenOut s == us.length && readOutput s == us.map (·.toNat)

/-- What the statement expects is what its reads return (R94): "the program is wrong if the value is not `v`". -/
def stmtMet (s : State) : Stmt → Bool
  | .expect r v => readValue s .regs r == v
  | .expectx us => readsUnits s us
  | .expects t => readsUnits s (textUnits t)
  | .loadx _ => true
  | .loads _ => true
  | .setlen _ => true
  | .encode => true
  | .decode => true
  | .wait => true
  | .copy => true

/-- The host takes up a statement (R94): its accesses, as the present state has them, come before the moves still
pending, and a program that expects what it does not read is wrong. Nothing of the core changes (log 6). -/
def takeUpStmt (t : Stmt) (s : State) : State :=
  { s with queue := stmtMoves s t ++ s.queue, wrong := s.wrong || !stmtMet s t }

/-- The host makes these statements, one after the other, after the moves still pending (R94). Each is taken up in the
state of its own turn. -/
def issueStmts (s : State) (ts : List Stmt) : State := { s with queue := s.queue ++ ts.map .stmt }

/-- The two calls as statements (R95): the operands, the operation, and the wait for its end. -/
def callStmts (i : Instr) (units : List Byte) : List Stmt :=
  match i with
  | .encode => [.loadx units, .encode, .wait]
  | .decode => [.loadx units, .decode, .wait]

end Sys2Proof.Machine
end

