-- ==== Sys2Proof/Machine/Step.lean ====
section
/-! DEFINITION. One step: the environment's next move, or CORE's next step when none is pending (R61, R225). -/

namespace Sys2Proof.Machine

/-- What a move of the environment does, once it is taken from the queue. -/
def doMove (m : Move) (s : State) : Host.Outcome State Fault Refusal :=
  match m with
  | .read sp i => hostRead sp i s
  | .write sp i v => hostWrite sp i v s
  | .wait => hostWait s
  | .core => coreTurn s
  | .reset => .next (resetStep s)
  | .call w => exec (decodeWord w) s
  | .stmt t => .next (takeUpStmt t s)

/-- One step. With moves pending the oldest is made; with none, CORE has its turn: a BUSY CORE takes its next step "with
no need of any host action" (R225) and an idle one keeps its state (R204; log 6). -/
def step (s : State) : Host.Outcome State Fault Refusal :=
  match s.queue with
  | [] => coreTurn s
  | m :: rest => doMove m { s with queue := rest }

/-- The state with the issue of the operation `w` selects as the environment's next move (R90, R94): this stands for the
host's writes of `OP` and `START` (log 19). -/
def State.withFetchWord (s : State) (nbits w : Nat) : State :=
  { s with queue := (tableBytes nbits w).map Move.call ++ s.queue }

end Sys2Proof.Machine
end

