-- ==== Sys2Proof/Safety.lean ====
section
/-! DEFINITION. The terms the statements use: the result of an operation (R232), the invariant of the
machine, and the state a statement's move starts in. -/

namespace Sys2Proof.Machine

/-- The result of the last operation: `(STATE, ERR, ERR_IDX, LEN_OUT, OUT[0 .. LEN_OUT))` (R232), none while no
operation has ended. It reads nothing of `OUT` at or above `LEN_OUT` and nothing of the internal registers. -/
def State.result (s : State) : Option Result :=
  match s.status with
  | .idle => none
  | .busy => none
  | .done => some (.done s.output)
  | .error => some (.error s.err s.errIdx)

/-- The listed units below index `n`. -/
def Memory.below (m : Memory) (n : Nat) : Memory := m.filter fun c => decide (c.1 < n)

/-- What a claim about an operation may read of the state it ends in (R232). What the spec leaves unspecified then is
blanked: `ACC`, `GRP`, `NGRP` and `PAD` (U1), `OUT` outside `OUT[0 .. LEN_OUT)` (U3, U4), and the count of steps. The
blanks are no values of the machine: a claim compares two states after this, and so reads none of them. -/
def State.specified (s : State) : State :=
  { s with acc := 0#32, grp := 0, ngrp := 0, pad := 0#3, outBuf := s.outBuf.below s.lenOut, tick := 0 }

/-- `full` of R100 or R130: what the groups of an operation write, before the truncation. -/
def fullOutput : Instr → List Byte → List Byte
  | .encode, bs => encodeFull bs
  | .decode, cs => decodeFull cs

/-- Group `g` of the untruncated output (R101, R131). -/
def groupOutput : Instr → List Byte → Nat → List Byte
  | .encode, bs, g => (encGroup (byteGroupAt bs g)).toList
  | .decode, cs, g => (decGroup (digitGroupAt cs g)).toList

/-- The operation `OP` selects (R90). -/
abbrev State.instr (s : State) : Instr := decodeOp s.op

/-- What every reachable state satisfies. Each field names the rule it comes from. -/
structure State.Inv (s : State) : Prop where
  /-- The parameters meet their constraints (R7, R8). -/
  params_valid : s.params.Valid
  /-- Registers of `LEN_BITS` bits hold no more (R24). -/
  lenIn_fits : s.lenIn < 2 ^ s.params.lenBits
  /-- (R28) -/
  errIdx_fits : s.errIdx < 2 ^ s.params.lenBits
  /-- (R29) -/
  lenOut_fits : s.lenOut < 2 ^ s.params.lenBits
  /-- (R31) -/
  grp_fits : s.grp < 2 ^ s.params.lenBits
  /-- (R32) -/
  ngrp_fits : s.ngrp < 2 ^ s.params.lenBits
  /-- `IN` is in canonical form and inside its extent (R34, R50). -/
  in_wf : s.inBuf.wf
  /-- (R34, R50) -/
  in_extent : ∀ c ∈ s.inBuf, c.1 < s.params.inCap
  /-- `OUT` is in canonical form and inside its extent (R35, R50). -/
  out_wf : s.outBuf.wf
  /-- (R35, R50) -/
  out_extent : ∀ c ∈ s.outBuf, c.1 < s.params.outCap
  /-- "`ERR` is 0 whenever `STATE` is IDLE, BUSY or DONE, and 1 or 2 whenever `STATE` is ERROR" (R27). -/
  err_iff : s.err ≠ .none ↔ s.status = .error
  /-- `ERR_IDX` is 0 unless `ERR` is `InvalidCharacter` (R28). -/
  errIdx_zero : s.err ≠ .invalidCharacter → s.errIdx = 0
  /-- `ERR_IDX` is an index in `IN` when `ERR` is `InvalidCharacter` (R28). -/
  errIdx_in : s.err = .invalidCharacter → s.errIdx < s.params.inCap
  /-- `LEN_OUT` "holds 0 when `STATE` is IDLE, BUSY or ERROR" (R29). -/
  lenOut_zero : s.status ≠ .done → s.lenOut = 0
  /-- In DONE every unit of the result has been written, so it lies in `OUT` (R35, R57). -/
  done_written : s.status = .done → ∀ k < s.lenOut, (s.outBuf.read k).isSome
  /-- An operation in progress passed the `InputTooLarge` test (R224). -/
  busy_fits : s.status = .busy → tooLarge s.params s.instr s.lenIn = false
  /-- (R32) -/
  busy_ngrp : s.status = .busy → s.ngrp = groupsOf s.instr s.lenIn
  /-- (R33) -/
  busy_pad : s.status = .busy → s.pad.toNat = padOf s.instr s.lenIn
  /-- `GRP <= NGRP` (R31). -/
  busy_grp : s.status = .busy → s.grp ≤ s.ngrp
  /-- After `j` groups, `OUT` holds the first `j` groups of `full` (R110, R145). -/
  busy_written : s.status = .busy → ∀ k < outSize s.instr * s.grp,
    s.outBuf.read k = (fullOutput s.instr s.input)[k]?
  /-- The groups DECODE has completed held valid characters only (R135, R145). -/
  busy_valid : s.status = .busy → s.instr = .decode → ∀ k < min (5 * s.grp) s.lenIn, charValid (s.inUnit k)

/-- The answer is a next state that satisfies `p`. -/
def answers (o : Answer) (p : State → Bool) : Bool :=
  match o with
  | .next t => p t
  | .fault _ => false
  | .refused _ => false

/-- The state in which the environment's next move is `m`. -/
def State.withMove (s : State) (m : Move) : State := { s with queue := m :: s.queue }

end Sys2Proof.Machine
end

