-- ==== Sys2Proof/Certificates/Slice0/Obligations.lean ====
section
/-! DEFINITION. The statements for the provers. Each docstring names the rule of spec/ it formalises. A free value is
never given a value here: where a field is a free value the statement says nothing of it, or only its width. -/

open Sys2Proof Sys2Proof.Machine

/-! ## Encoding and the step -/

/-- `OP` = 0 selects ENCODE and `OP` = 1 DECODE (R90). The byte form, that a whole written byte selects by its bit 0 with
the bits above ignored, is the model's, read from R36 and R23 (DEDUCED, log 21). -/
def Obligations.OpBitSelectsOperation : Prop :=
  (∀ w : Byte, decodeWord w = if w.toNat % 2 = 0 then .encode else .decode) ∧
  decodeWord 0x00#8 = .encode ∧ decodeWord 0x01#8 = .decode ∧
  decodeOp 0#1 = .encode ∧ decodeOp 1#1 = .decode

/-- Decoding an encoded operation gives it back, with the rest of the bytes. -/
def Obligations.DecodeOfEncode : Prop :=
  ∀ (i : Instr) (rest : List Byte), i.wf = true ∧ decodeInstr (encodeInstr i ++ rest) = .ok (i, rest) ∧
    decodeOp (opOf i) = i

/-- The issue of an operation, as the environment's next move, is exec of the operation its byte decodes to, once the
move is taken from the queue; and the same for the host's table word. The move is the model's own form of the host's
writes of OP and START (log 5, log 19). -/
def Obligations.StepRunsTheDecodedOperation : Prop :=
  ∀ s : State,
    (∀ w : Byte, step (s.withMove (.call w)) = exec (decodeWord w) s) ∧
    (∀ nbits w : Nat, ∀ i, decodeTableWord nbits w = some i → step (s.withFetchWord nbits w) = exec i s)

/-! ## The alphabet -/

/-- R21: the decode table is the inverse of the encode table, entry by entry. -/
def Obligations.DecRomInvertsEncRom : Prop :=
  decRom.length = 96 ∧
  (∀ j < 96, ∀ d : Digit, (encRom[d.val]?).map (·.toNat) = some (j + 32) → decRom[j]? = some ⟨true, d⟩) ∧
  (∀ j < 96, (∀ d : Digit, (encRom[d.val]?).map (·.toNat) ≠ some (j + 32)) → decRom[j]? = some ⟨false, 0⟩)

/-- R86: the contents of the encode table, range by range. 68 of the entries are general knowledge in the spec itself
(PRESUMED, log 13). -/
def Obligations.EncRomContents : Prop :=
  (∀ d < 10, encRom[d]? = some (BitVec.ofNat 8 (48 + d))) ∧
  (∀ d < 26, encRom[10 + d]? = some (BitVec.ofNat 8 (97 + d))) ∧
  (∀ d < 26, encRom[36 + d]? = some (BitVec.ofNat 8 (65 + d))) ∧
  (encRom.drop 62).map (·.toNat) = [46, 45, 58, 43, 61, 94, 33, 47, 42, 63, 38, 60, 62, 40, 41, 91, 93, 123, 125, 64,
    37, 36, 35]

/-- 85 entries, all distinct (R20), all of code 33 to 126. R20 says no more than "printable", of which 32 is the lowest
code; that no entry is 32 is read from the table of R86 and its codes (PRESUMED, log 13). -/
def Obligations.EncRomDistinctPrintable : Prop :=
  encRom.length = 85 ∧ encRom.Nodup ∧ ∀ c ∈ encRom, 32 < c.toNat ∧ c.toNat < 127

/-- R88: the lookup functions, on every code and every digit. The spec marks its last sentence as derived. -/
def Obligations.LookupFunctionsInvert : Prop :=
  (∀ c : Byte, charValid c = true ↔
    32 ≤ c.toNat ∧ c.toNat ≤ 127 ∧ (decRom[c.toNat - 32]?).map (·.valid) = some true) ∧
  (∀ c : Byte, charValid c = true → decRom[c.toNat - 32]? = some ⟨true, digitOf c⟩) ∧
  (∀ d : Digit, encRom[d.val]? = some (charOf d)) ∧
  (∀ d : Digit, charValid (charOf d) = true ∧ digitOf (charOf d) = d) ∧
  (∀ c : Byte, charValid c = true → charOf (digitOf c) = c) ∧
  ((List.range 256).countP fun n => charValid (BitVec.ofNat 8 n)) = 85

/-- R89: the 171 codes that are no character of the alphabet, a list the spec marks as derived. -/
def Obligations.InvalidCodesListed : Prop :=
  ∀ c : Byte, charValid c = false ↔
    c.toNat < 32 ∨ c.toNat ∈ [32, 34, 39, 44, 59, 92, 95, 96, 124, 126, 127] ∨ 128 ≤ c.toNat

/-! ## The arithmetic of a group -/

/-- R176, which the spec marks as derived: the five digits of a value below `85^5` have that value and are the only ones,
and the first digit of a 32-bit value is at most 82. -/
def Obligations.RadixDigitsExactAndUnique : Prop :=
  ∀ v < 85 ^ 5, digitValue (radixDigits v) = v ∧ (∀ d : DigitGroup, digitValue d = v → d = radixDigits v) ∧
    (v < 2 ^ 32 → (radixDigits v).x0.val ≤ 82)

/-- R111, which the spec marks as derived: the three forms of ENC.RADIX agree on every `ACC`. -/
def Obligations.RadixFormsAgree : Prop :=
  ∀ a : Acc, radixByDivision a.toNat = encRadix a ∧ a.toNat / 85 ^ 5 = 0 ∧
    radixByRemainder a.toNat = (encRadix a).map Fin.val

/-- R147, which the spec marks as derived: the three forms of DEC.ACCUM leave the same `ACC`. -/
def Obligations.AccumFormsAgree : Prop :=
  ∀ d : DigitGroup, accumHorner d = decAccum d ∧ accumWrapping d = decAccum d

/-- R138: the bytes of a 32-bit `ACC` are those of the exact value; the value reaches `2^32` exactly for the digit
groups above 82 23 54 12 0 in digit order, all of which start with 82 or more. -/
def Obligations.GroupValueWrapsSilently : Prop :=
  ∀ d : DigitGroup, decSplit (decAccum d) = valueBytes (digitValue d) ∧
    (decAccum d).toNat = digitValue d % 2 ^ 32 ∧ digitValue d ≤ 4437053124 ∧
    (2 ^ 32 ≤ digitValue d ↔ [82, 23, 54, 12, 0] < d.toList.map Fin.val) ∧
    (2 ^ 32 ≤ digitValue d → 82 ≤ d.x0.val)

/-- R171, which the spec marks as derived: `dec_group` of the digits of `enc_group` gives the four bytes back. -/
def Obligations.FullGroupRoundTrip : Prop :=
  ∀ b : ByteGroup, decGroup ((encGroup b).map digitOf) = b ∧ (∀ c ∈ (encGroup b).toList, charValid c = true)

/-! ## The operations as functions -/

/-- R170: with capacities that admit both, ENCODE of any byte sequence ends DONE with a text whose DECODE ends DONE with
the byte sequence. The converse is not a law: some valid text is not the encoding of its bytes. -/
def Obligations.DecodeOfEncodeIsIdentity : Prop :=
  (∀ (p : Params) (bs : List Byte), tooLarge p .encode bs.length = false →
    ∃ cs : List Byte, opResult p .encode bs = .done cs ∧
      (tooLarge p .decode cs.length = false → opResult p .decode cs = .done bs)) ∧
  (∃ (p : Params) (cs bs : List Byte), opResult p .decode cs = .done bs ∧ tooLarge p .encode bs.length = false ∧
    opResult p .encode bs ≠ .done cs)

/-- R173, which the spec marks as derived: the two length relations, and the second applied to the first. -/
def Obligations.LengthRelations : Prop :=
  (∀ bs : List Byte, (encodeBytes bs).length = 5 * ceilQuot bs.length 4 - (4 - bs.length % 4) % 4) ∧
  (∀ cs : List Byte, (decodeChars cs).length = 4 * ceilQuot cs.length 5 - (5 - cs.length % 5) % 5) ∧
  (∀ bs : List Byte, (decodeChars (encodeBytes bs)).length = bs.length)

/-- R112, which the spec marks as derived: the length of ENCODE's text by remainder; the possible lengths are the
naturals not 1 modulo 5. -/
def Obligations.EncodeLengthsByRemainder : Prop :=
  (∀ (bs : List Byte) (q r : Nat), bs.length = 4 * q + r → r ≤ 3 →
    (encodeBytes bs).length = if r = 0 then 5 * q else 5 * q + r + 1) ∧
  (∀ L : Nat, (∃ bs : List Byte, (encodeBytes bs).length = L) ↔ L % 5 ≠ 1)

/-- R146, which the spec marks as derived: the length of DECODE's bytes by remainder. -/
def Obligations.DecodeLengthsByRemainder : Prop :=
  ∀ (cs : List Byte) (q r : Nat), cs.length = 5 * q + r → r ≤ 4 →
    (decodeChars cs).length = if r ≤ 1 then 4 * q else 4 * q + r - 1

/-- R113, which the spec marks as derived: every unit of ENCODE's text is a character of the alphabet. -/
def Obligations.EncodeTextIsValid : Prop :=
  ∀ bs : List Byte, ∀ c ∈ encodeBytes bs, charValid c = true

/-- R143: a trailing character alone in the last group adds nothing to DECODE's bytes, and is still validated. -/
def Obligations.LoneTrailingCharacterDropped : Prop :=
  ∀ (p : Params) (cs : List Byte) (c : Byte), cs.length % 5 = 0 → tooLarge p .decode (cs.length + 1) = false →
    (∀ x ∈ cs, charValid x = true) →
    opResult p .decode (cs ++ [c]) =
      if charValid c then .done (decodeChars cs) else .error .invalidCharacter cs.length

/-- R144, which the spec marks as derived: three pairs of valid texts with the same bytes ("nb" and "nc"; "%nSc1" and
"00000"; "n" and "z"), and a text, "nc", that is not the encoding of its bytes. -/
def Obligations.DecodeIsNotInjective : Prop :=
  decodeChars [0x6E#8, 0x62#8] = decodeChars [0x6E#8, 0x63#8] ∧
  decodeChars [0x25#8, 0x6E#8, 0x53#8, 0x63#8, 0x31#8] = decodeChars [0x30#8, 0x30#8, 0x30#8, 0x30#8, 0x30#8] ∧
  decodeChars [0x6E#8] = decodeChars [0x7A#8] ∧
  (∀ c ∈ [0x6E#8, 0x62#8, 0x63#8, 0x25#8, 0x53#8, 0x31#8, 0x30#8, 0x7A#8], charValid c = true) ∧
  encodeBytes (decodeChars [0x6E#8, 0x63#8]) = [0x6E#8, 0x62#8]

/-- R181, which the spec marks as derived: which lengths an instance admits, and the three named configurations, for
each operation and for a round trip on one instance. -/
def Obligations.NamedConfigurationLimits : Prop :=
  (∀ p n, tooLarge p .encode n = false ↔ n ≤ p.inCap ∧ 5 * ceilQuot n 4 ≤ p.outCap) ∧
  (∀ p n, tooLarge p .decode n = false ↔ n ≤ p.inCap ∧ 4 * ceilQuot n 5 ≤ p.outCap) ∧
  (∀ n, tooLarge .ref .encode n = false ↔ n ≤ 4096) ∧ (∀ n, tooLarge .ref .decode n = false ↔ n ≤ 4096) ∧
  (∀ n, tooLarge .tiny .encode n = false ↔ n ≤ 16) ∧ (∀ n, tooLarge .tiny .decode n = false ↔ n ≤ 16) ∧
  (∀ n, tooLarge .skew .encode n = false ↔ n ≤ 8) ∧ (∀ n, tooLarge .skew .decode n = false ↔ n ≤ 10) ∧
  (∀ n, (tooLarge .ref .encode n = false ∧ tooLarge .ref .decode (resultLen .encode n) = false) ↔ n ≤ 3276) ∧
  (∀ n, (tooLarge .tiny .encode n = false ∧ tooLarge .tiny .decode (resultLen .encode n) = false) ↔ n ≤ 12) ∧
  (∀ n, (tooLarge .skew .encode n = false ∧ tooLarge .skew .decode (resultLen .encode n) = false) ↔ n ≤ 8)

/-- R194: `InputTooLarge` is tested on `LEN_IN` alone and comes first; then the invalid character of lowest index. -/
def Obligations.DecodeErrorPriority : Prop :=
  ∀ (p : Params) (cs : List Byte),
    (tooLarge p .decode cs.length = true → opResult p .decode cs = .error .inputTooLarge 0) ∧
    (tooLarge p .decode cs.length = false → ∀ k c, cs[k]? = some c → charValid c = false →
      (∀ j < k, ∀ d, cs[j]? = some d → charValid d = true) → opResult p .decode cs = .error .invalidCharacter k)

/-! ## Reset -/

/-- R42, for the fields it gives a value: the machine right after reset, and after a reset in any state. -/
def Obligations.ResetValues : Prop :=
  (∀ p : Params, (State.resetWith p).op = 0#1 ∧ (State.resetWith p).lenIn = 0 ∧ (State.resetWith p).status = .idle ∧
    (State.resetWith p).err = .none ∧ (State.resetWith p).errIdx = 0 ∧ (State.resetWith p).lenOut = 0) ∧
  (∀ s : State, ∃ t, step (s.withMove .reset) = .next t ∧ t.op = 0#1 ∧ t.lenIn = 0 ∧ t.status = .idle ∧
    t.err = .none ∧ t.errIdx = 0 ∧ t.lenOut = 0 ∧ t.params = s.params ∧ t.queue = s.queue)

/-- R42, last paragraph, which the spec marks as derived: a START straight after reset encodes the empty input. The
result has no unit. -/
def Obligations.StartAfterResetEncodesEmpty : Prop :=
  ∀ (p : Params) (v : Nat), p.Valid → ∃ t,
    core.run 2 ((State.resetWith p).withMove (.write .regs 2 v)) = .next t ∧
    t.status = .done ∧ t.lenOut = 0 ∧ t.err = .none ∧ t.op = 0#1 ∧ t.inBuf = [] ∧
    t.result = some (.done [])

/-- Every instance is in the invariant right after reset (the values no rule gives are log 2's). -/
def Obligations.ResetMeetsInvariant : Prop :=
  ∀ p : Params, p.Valid → (State.resetWith p).Inv

/-! ## START and CORE's steps -/

/-- START in IDLE, DONE or ERROR (R224), as one step, with everything it leaves unchanged. When the operation does not fit,
it has ended (R232): nothing is then said of `ACC`, `GRP`, `NGRP` and `PAD` (log 12), nor of `OUT` (R195, U4), which R224
does not clear. -/
def Obligations.StartBeginsOrRaises : Prop :=
  ∀ (s : State) (v : Nat), s.Inv → s.status ≠ .busy →
    let n := s.lenIn
    let G := if s.op = 0#1 then ceilQuot n 4 else ceilQuot n 5
    let P := if s.op = 0#1 then (4 - n % 4) % 4 else (5 - n % 5) % 5
    let need := if s.op = 0#1 then 5 * G else 4 * G
    (n ≤ s.params.inCap → need ≤ s.params.outCap → step (s.withMove (.write .regs 2 v)) = .next { s with
      err := .none, errIdx := 0, lenOut := 0, ngrp := G, pad := BitVec.ofNat 3 P, grp := 0, status := .busy,
      tick := s.tick + 1 }) ∧
    ((s.params.inCap < n ∨ s.params.outCap < need) → ∃ t, step (s.withMove (.write .regs 2 v)) = .next t ∧
      t.specified = State.specified { s with err := .inputTooLarge, errIdx := 0, lenOut := 0, status := .error })

/-- R57, which the spec marks as derived: while an operation is in progress every index a group step forms lies in its
buffer. -/
def Obligations.GroupIndicesInRange : Prop :=
  ∀ s : State, s.Inv → s.status = .busy → s.grp < s.ngrp →
    (∀ k < inSize s.instr, inIndex s.instr s.grp k < s.lenIn → inIndex s.instr s.grp k < s.params.inCap) ∧
    (∀ k < outSize s.instr, outIndex s.instr s.grp k < outSize s.instr * s.ngrp) ∧
    outSize s.instr * s.ngrp ≤ s.params.outCap ∧ s.params.inCap ≤ 2 ^ s.params.lenBits - 1 ∧
    s.params.outCap ≤ 2 ^ s.params.lenBits - 1

/-- R102 to R108: the group step of ENCODE. `ACC` takes the value of the padded group, the five characters of its digits
go to `OUT[5*GRP + k]`, `GRP` grows by one, and nothing else of the core changes. -/
def Obligations.EncodeGroupStep : Prop :=
  ∀ s : State, s.Inv → s.status = .busy → s.op = 0#1 → s.grp < s.ngrp →
    let byte := fun i => if i < s.lenIn then (s.inUnit i).toNat else 0
    let g := s.grp
    ∃ t, coreStep s = .next t ∧
      t.acc.toNat = 2 ^ 24 * byte (4 * g) + 2 ^ 16 * byte (4 * g + 1) + 2 ^ 8 * byte (4 * g + 2) + byte (4 * g + 3) ∧
      (∀ k < 5, t.outBuf.read (5 * g + k) = some (charOf (radixDigit t.acc.toNat k))) ∧
      (∀ a, (a < 5 * g ∨ 5 * g + 5 ≤ a) → t.outBuf.read a = s.outBuf.read a) ∧
      t.grp = g + 1 ∧
      { t with acc := s.acc, outBuf := s.outBuf, grp := g, tick := s.tick } = s

/-- FINISH of ENCODE (R109), with everything it leaves unchanged that R232 lets a claim read: of `OUT` the units of the
result alone, and none of `ACC`, `GRP`, `NGRP` and `PAD`. -/
def Obligations.EncodeFinish : Prop :=
  ∀ s : State, s.Inv → s.status = .busy → s.op = 0#1 → s.grp = s.ngrp →
    s.pad.toNat ≤ 5 * s.ngrp ∧
    ∃ t, coreStep s = .next t ∧ t.specified = State.specified { s with
      lenOut := 5 * s.ngrp - s.pad.toNat, err := .none, errIdx := 0, status := .done }

/-- R132 to R141: the group step of DECODE when the group's present characters are valid. `ACC` takes the value of the
padded group modulo `2^32`, its four bytes go to `OUT[4*GRP + k]`, `GRP` grows by one, and nothing else changes. -/
def Obligations.DecodeGroupStep : Prop :=
  ∀ s : State, s.Inv → s.status = .busy → s.op = 1#1 → s.grp < s.ngrp →
    (∀ k < 5, 5 * s.grp + k < s.lenIn → charValid (s.inUnit (5 * s.grp + k)) = true) →
    let dig := fun i => if i < s.lenIn then (digitOf (s.inUnit i)).val else 84
    let g := s.grp
    ∃ t, coreStep s = .next t ∧
      t.acc.toNat = (85 ^ 4 * dig (5 * g) + 85 ^ 3 * dig (5 * g + 1) + 85 ^ 2 * dig (5 * g + 2) +
        85 * dig (5 * g + 3) + dig (5 * g + 4)) % 2 ^ 32 ∧
      (∀ k < 4, t.outBuf.read (4 * g + k) = some (BitVec.ofNat 8 (t.acc.toNat / 256 ^ (3 - k) % 256))) ∧
      (∀ a, (a < 4 * g ∨ 4 * g + 4 ≤ a) → t.outBuf.read a = s.outBuf.read a) ∧
      t.grp = g + 1 ∧
      { t with acc := s.acc, outBuf := s.outBuf, grp := g, tick := s.tick } = s

/-- R135, R195: the group step of DECODE that finds an invalid character: `ERR_IDX` takes the lowest one's index, and
`OP`, `LEN_IN` and `IN` do not change in this step. Of `OUT`, unspecified then (R195, U4), nothing is said. -/
def Obligations.DecodeGroupRaisesInvalidCharacter : Prop :=
  ∀ (s : State) (k : Nat), s.Inv → s.status = .busy → s.op = 1#1 → s.grp < s.ngrp → k < 5 →
    5 * s.grp + k < s.lenIn → charValid (s.inUnit (5 * s.grp + k)) = false →
    (∀ j < k, charValid (s.inUnit (5 * s.grp + j)) = true) →
    ∃ t, coreStep s = .next t ∧ t.err = .invalidCharacter ∧ t.errIdx = 5 * s.grp + k ∧ t.lenOut = 0 ∧
      t.status = .error ∧ t.params = s.params ∧ t.op = s.op ∧ t.lenIn = s.lenIn ∧ t.inBuf = s.inBuf ∧
      t.queue = s.queue ∧ t.reply = s.reply ∧ t.wrong = s.wrong ∧ t.epoch = s.epoch

/-- FINISH of DECODE (R142), with everything it leaves unchanged that R232 lets a claim read: of `OUT` the units of the
result alone, and none of `ACC`, `GRP`, `NGRP` and `PAD`. -/
def Obligations.DecodeFinish : Prop :=
  ∀ s : State, s.Inv → s.status = .busy → s.op = 1#1 → s.grp = s.ngrp →
    s.pad.toNat ≤ 4 * s.ngrp ∧
    ∃ t, coreStep s = .next t ∧ t.specified = State.specified { s with
      lenOut := 4 * s.ngrp - s.pad.toNat, err := .none, errIdx := 0, status := .done }

/-- R204: CORE's turn while it is not BUSY changes nothing, whether the environment gives it the turn or has no move. -/
def Obligations.IdleCoreKeepsItsState : Prop :=
  ∀ s : State, s.status ≠ .busy → step (s.withMove .core) = .next s ∧ (s.queue = [] → step s = .next s)

/-! ## The two operations -/

/-- R100 and R130, by R110 and R145, which the spec marks as derived: from any state in which the host may issue it, an
operation ends in the result its function gives on `LEN_IN` and `IN[0 .. LEN_IN)`. -/
def Obligations.OperationComputesItsFunction : Prop :=
  ∀ (i : Instr) (s : State), s.Inv → s.status ≠ .busy →
    ∃ t, exec i s = .next t ∧ t.result = some (opResult s.params i s.input)

/-- R100: an ENCODE that fits ends DONE with the text. -/
def Obligations.EncodeCompletes : Prop :=
  ∀ s : State, s.Inv → s.status ≠ .busy → s.lenIn ≤ s.params.inCap → 5 * ceilQuot s.lenIn 4 ≤ s.params.outCap →
    ∃ t, exec .encode s = .next t ∧ t.status = .done ∧ t.err = .none ∧ t.errIdx = 0 ∧
      t.lenOut = 5 * ceilQuot s.lenIn 4 - (4 - s.lenIn % 4) % 4 ∧
      ∀ g k, k < 5 → 5 * g + k < t.lenOut →
        let byte := fun i => if i < s.lenIn then s.inUnit i else 0#8
        some (t.outUnit (5 * g + k)) =
          (encGroup ⟨byte (4 * g), byte (4 * g + 1), byte (4 * g + 2), byte (4 * g + 3)⟩).toList[k]?

/-- R130: a DECODE that fits, all of whose characters are valid, ends DONE with the bytes. -/
def Obligations.DecodeCompletes : Prop :=
  ∀ s : State, s.Inv → s.status ≠ .busy → s.lenIn ≤ s.params.inCap → 4 * ceilQuot s.lenIn 5 ≤ s.params.outCap →
    (∀ k < s.lenIn, charValid (s.inUnit k) = true) →
    ∃ t, exec .decode s = .next t ∧ t.status = .done ∧ t.err = .none ∧ t.errIdx = 0 ∧
      t.lenOut = 4 * ceilQuot s.lenIn 5 - (5 - s.lenIn % 5) % 5 ∧
      ∀ g k, k < 4 → 4 * g + k < t.lenOut →
        let dig := fun i => if i < s.lenIn then digitOf (s.inUnit i) else 84
        some (t.outUnit (4 * g + k)) =
          (decGroup ⟨dig (5 * g), dig (5 * g + 1), dig (5 * g + 2), dig (5 * g + 3), dig (5 * g + 4)⟩).toList[k]?

/-- R182, R191: a DECODE that fits and holds an invalid character ends ERROR with `InvalidCharacter`, whatever the other
characters are; `ERR_IDX` is the index of the lowest invalid one. -/
def Obligations.DecodeRaisesInvalidCharacter : Prop :=
  ∀ s : State, s.Inv → s.status ≠ .busy →
    s.lenIn ≤ s.params.inCap → 4 * ceilQuot s.lenIn 5 ≤ s.params.outCap →
    (∃ k < s.lenIn, charValid (s.inUnit k) = false) →
    ∃ t, exec .decode s = .next t ∧ t.status = .error ∧ t.err = .invalidCharacter ∧ t.lenOut = 0 ∧
      t.errIdx < s.lenIn ∧ charValid (s.inUnit t.errIdx) = false ∧ ∀ j < t.errIdx, charValid (s.inUnit j) = true

/-- An operation that does not fit ends ERROR with `InputTooLarge` (R192, R195), whatever `IN` holds. That `OP` then holds
the operation's code, as the issue wrote it, is the model's reading (DEDUCED, log 20). -/
def Obligations.OperationRaisesInputTooLarge : Prop :=
  ∀ (i : Instr) (s : State), s.status ≠ .busy →
    (s.params.inCap < s.lenIn ∨ s.params.outCap < match i with
      | .encode => 5 * ceilQuot s.lenIn 4
      | .decode => 4 * ceilQuot s.lenIn 5) →
    ∃ t, exec i s = .next t ∧ t.status = .error ∧ t.err = .inputTooLarge ∧ t.errIdx = 0 ∧ t.lenOut = 0 ∧
      t.op = opOf i ∧ t.lenIn = s.lenIn ∧ t.inBuf = s.inBuf

/-- The frame of ENCODE and DECODE: `LEN_IN`, `IN` and the parameters do not change; `OP` holds the operation's code (the
issue writes it: log 20). `OUT` outside the result is unspecified (U3, U4), and a claim about an operation does not read
it (R232); what a step writes in `OUT` while the operation runs is in OutWrittenGroupByGroup. -/
def Obligations.OperationFrame : Prop :=
  ∀ (i : Instr) (s t : State), s.Inv → exec i s = .next t →
    t.params = s.params ∧ t.op = opOf i ∧ t.lenIn = s.lenIn ∧ (∀ a, t.inBuf.read a = s.inBuf.read a) ∧
    t.queue = s.queue ∧ t.reply = s.reply ∧ t.wrong = s.wrong ∧ t.epoch = s.epoch

/-- R174: with `LEN_IN` = 0 either operation ends DONE with nothing, and writes no unit of `IN`; the
result has no unit. -/
def Obligations.EmptyInputEndsDone : Prop :=
  ∀ (i : Instr) (s : State), s.status ≠ .busy → s.lenIn = 0 →
    ∃ t, exec i s = .next t ∧ t.status = .done ∧ t.err = .none ∧ t.errIdx = 0 ∧ t.lenOut = 0 ∧
      t.inBuf = s.inBuf ∧ t.result = some (.done [])

/-- R40, which the spec marks as derived: the result depends on the operation, the parameters, `LEN_IN` and
`IN[0 .. LEN_IN)` alone: two states that agree on those, whatever else they hold, end in the same result. -/
def Obligations.ResultDependsOnOperandsOnly : Prop :=
  ∀ (i : Instr) (s s' : State), s.Inv → s'.Inv → s.status ≠ .busy → s'.status ≠ .busy → s'.params = s.params →
    s'.lenIn = s.lenIn → (∀ k < s.lenIn, s'.inUnit k = s.inUnit k) →
    ∃ t t', exec i s = .next t ∧ exec i s' = .next t' ∧ t'.result = t.result

/-- R231, R95: the atomic operation ends as the reference machine does by the host's writes of `OP` and `START` and one turn
of CORE for each group and one more: in the same result, and in the same state as far as R232 lets a claim read it. -/
def Obligations.AtomicCallIsReferenceRun : Prop :=
  ∀ (i : Instr) (s : State) (v : Nat), s.Inv → s.status ≠ .busy →
    ∃ t u : State, exec i s = .next t ∧ u.result = t.result ∧ u.specified = t.specified ∧
      core.run (groupsOf i s.lenIn + 3) { s with
        queue := .write .regs 0 (opOf i).toNat :: .write .regs 2 v ::
          (List.replicate (groupsOf i s.lenIn + 1) .core ++ s.queue) } = .next u

/-- R170, R181, R94: ENCODE, COPY and DECODE on one instance restore the bytes, when the capacities admit both operations:
by the whole calls with the accesses of COPY between them, and as a program of statements, each taken up in the state of
its own turn (log 6), whose EXPECTX finds the bytes. -/
def Obligations.OneInstanceRoundTrip : Prop :=
  ∀ s : State, s.Inv → s.status ≠ .busy → tooLarge s.params .encode s.lenIn = false →
    tooLarge s.params .decode (resultLen .encode s.lenIn) = false →
    ∃ t r, exec .encode s = .next t ∧
      core.run ((copyMoves t).length + 1) { t with queue := copyMoves t ++ [.call 0x01#8] } = .next r ∧
      r.status = .done ∧ r.output = s.input ∧
      ∃ (n : Nat) (u : State), core.run n { s with
          queue := [.encode, .wait, .copy, .decode, .wait, .expectx s.input].map Move.stmt ++ s.queue } = .next u ∧
        u.queue = s.queue ∧ u.wrong = s.wrong ∧ u.status = .done ∧ u.output = s.input

/-! ## The whole machine -/

/-- Every step keeps the invariant. -/
def Obligations.StepKeepsInvariant : Prop :=
  ∀ s t : State, s.Inv → step s = .next t → t.Inv

/-- No step faults from a state that meets the invariant, unless the environment's move names an index that does not
exist; and then the fault is that one. -/
def Obligations.OnlyMissingIndicesFault : Prop :=
  ∀ (s : State) (f : Fault), s.Inv → step s = .fault f →
    ∃ sp i, f = .noSuchUnit sp i ∧ sp.has s.params i = false ∧
      (s.queue.head? = some (.read sp i) ∨ ∃ v, s.queue.head? = some (.write sp i v))

/-- R225: a BUSY operation takes at most `NGRP - GRP + 1` further steps of CORE, with no host action. -/
def Obligations.OperationEndsInTime : Prop :=
  ∀ s : State, s.Inv → s.status = .busy → s.queue = [] →
    ∃ n t, n ≤ s.ngrp - s.grp + 1 ∧ core.run n s = .next t ∧ (t.status = .done ∨ t.status = .error)

/-- R94: WAIT polls until the operation has ended, then returns its `STATE`. R94 and R225 give fairness between two polls
and no count; that the polls are one more than CORE's steps is the model's, which gives CORE exactly one step between two
polls (DESIGN CHOICE, log 25, under log 6). -/
def Obligations.WaitReturnsTheEnd : Prop :=
  ∀ s : State, s.Inv → s.status = .busy →
    ∃ n t, n ≤ s.ngrp - s.grp + 2 ∧ core.run n (s.withMove .wait) = .next t ∧ t.queue = s.queue ∧
      ((t.status = .done ∧ t.reply = some 2) ∨ (t.status = .error ∧ t.reply = some 3))

/-- R223: how `STATE` moves in one step, and on which move of the environment; a whole call is START to end at once
(R231). -/
def Obligations.StatusMovesOnlyAsListed : Prop :=
  ∀ s t : State, step s = .next t →
    t.status = s.status ∨
    (s.status ≠ .busy ∧ (∃ v, s.queue.head? = some (.write .regs 2 v)) ∧ (t.status = .busy ∨ t.status = .error)) ∨
    (s.status = .busy ∧ (s.queue.head? = none ∨ s.queue.head? = some .core ∨ s.queue.head? = some .wait) ∧
      (t.status = .done ∨ t.status = .error)) ∨
    (s.status ≠ .busy ∧ (∃ w, s.queue.head? = some (.call w)) ∧ (t.status = .done ∨ t.status = .error)) ∨
    (s.queue.head? = some .reset ∧ t.status = .idle)

/-- R228, which the spec marks as derived: from DONE or ERROR, no move but START, an issue or reset changes the result,
unit by unit of `OUT[0 .. LEN_OUT)`. -/
def Obligations.ResultKeptUntilStartOrReset : Prop :=
  ∀ s t : State, (s.status = .done ∨ s.status = .error) → step s = .next t →
    (∀ v, s.queue.head? ≠ some (.write .regs 2 v)) → (∀ w, s.queue.head? ≠ some (.call w)) →
    s.queue.head? ≠ some .reset →
    t.result = s.result ∧ t.lenOut = s.lenOut ∧ t.err = s.err ∧ t.errIdx = s.errIdx ∧
    ∀ k < s.lenOut, t.outBuf.read k = s.outBuf.read k

/-- R27, R28, R29, R31, R33, as the invariant gives them in every state it holds of. -/
def Obligations.StatusRegistersConsistent : Prop :=
  ∀ s : State, s.Inv →
    ((s.status = .idle ∨ s.status = .busy ∨ s.status = .done) → s.err.code = 0#2) ∧
    (s.status = .error → s.err.code = 1#2 ∨ s.err.code = 2#2) ∧
    (s.err ≠ .invalidCharacter → s.errIdx = 0) ∧
    (s.status ≠ .done → s.lenOut = 0) ∧ (s.status = .done → s.lenOut ≤ s.params.outCap) ∧
    (s.status = .busy → s.grp ≤ s.ngrp ∧ s.pad.toNat < inSize s.instr)

/-! ## The host interface -/

/-- R36, R227: what a host read of each register returns while CORE is not BUSY; a read changes nothing else. -/
def Obligations.RegisterReads : Prop :=
  ∀ s : State, s.status ≠ .busy →
    ∀ x ∈ [(0, s.op.toNat), (1, s.lenIn), (2, 0), (3, s.status.code.toNat), (4, s.err.code.toNat), (5, s.errIdx),
      (6, s.lenOut)],
      step (s.withMove (.read .regs x.1)) = .next { s with reply := some x.2 }

/-- R227: a host read of a unit of `IN`, and of a unit of the result in DONE, returns the unit. -/
def Obligations.BufferReads : Prop :=
  (∀ (s : State) (i : Nat), s.status ≠ .busy → i < s.params.inCap →
    step (s.withMove (.read .inBuf i)) = .next { s with reply := some (s.inUnit i).toNat }) ∧
  (∀ (s : State) (i : Nat), s.Inv → s.status = .done → i < s.lenOut → ∃ u : Byte, s.outBuf.read i = some u ∧
    step (s.withMove (.read .outBuf i)) = .next { s with reply := some u.toNat })

/-- R227, U6, R58: while CORE is BUSY a read of `STATE` returns BUSY; any read of an index that exists, in any state,
changes nothing but what the host has read, and returns a value of the width of what it reads (log 8 where the spec gives
none). -/
def Obligations.ReadsChangeNothing : Prop :=
  (∀ s : State, s.status = .busy → step (s.withMove (.read .regs 3)) = .next { s with reply := some 1 }) ∧
  (∀ (s : State) (sp : Space) (i : Nat), s.Inv → sp.has s.params i = true → ∃ v,
    step (s.withMove (.read sp i)) = .next { s with reply := some v } ∧
    v < 2 ^ (if sp = .regs then regWidth s.params i else 8))

/-- R23, R24, R34, R36: what an accepted host write of `OP`, `LEN_IN` and `IN` does, and all it does. That a value wider
than 8 bits is cut when written to `IN` is the model's choice (DESIGN CHOICE, log 23). -/
def Obligations.HostWrites : Prop :=
  ∀ (s : State) (v : Nat), s.status ≠ .busy →
    (∃ b : BitVec 1, b.toNat = v % 2 ∧ step (s.withMove (.write .regs 0 v)) = .next { s with op := b }) ∧
    step (s.withMove (.write .regs 1 v)) = .next { s with lenIn := v % 2 ^ s.params.lenBits } ∧
    (∀ i < s.params.inCap, ∃ m : Memory, step (s.withMove (.write .inBuf i v)) = .next { s with inBuf := m } ∧
      m.read i = some (BitVec.ofNat 8 v) ∧ ∀ a, a ≠ i → m.read a = s.inBuf.read a)

/-- R36, R50, R227: a host write of a register 3 to 6 or of `OUT` is ignored in every state. -/
def Obligations.ReadOnlyWritesIgnored : Prop :=
  ∀ (s : State) (v : Nat),
    (∀ r, 3 ≤ r → r ≤ 6 → step (s.withMove (.write .regs r v)) = .next s) ∧
    (∀ i < s.params.outCap, step (s.withMove (.write .outBuf i v)) = .next s)

/-- R227, U5: while CORE is BUSY a host write of `OP`, `LEN_IN`, `START` or `IN`, and the issue of an operation, have no
meaning: the model refuses them by name (log 7). -/
def Obligations.BusyWritesRefused : Prop :=
  ∀ (s : State) (v : Nat), s.status = .busy →
    (∀ r < 3, step (s.withMove (.write .regs r v)) = .refused (.hostWriteWhileBusy .regs r)) ∧
    (∀ i < s.params.inCap, step (s.withMove (.write .inBuf i v)) = .refused (.hostWriteWhileBusy .inBuf i)) ∧
    (∀ i : Instr, exec i s = .refused (.hostWriteWhileBusy .regs 0))

/-- The model's choice (log 9): an access to a register number or unit that does not exist faults. -/
def Obligations.MissingIndicesFault : Prop :=
  ∀ (s : State) (sp : Space) (i v : Nat), sp.has s.params i = false →
    step (s.withMove (.read sp i)) = .fault (.noSuchUnit sp i) ∧
    step (s.withMove (.write sp i v)) = .fault (.noSuchUnit sp i)

/-- R94: the accesses of `LOADX` leave the units as the input. -/
def Obligations.LoadxLoadsTheInput : Prop :=
  ∀ (s : State) (us : List Byte), s.Inv → s.status ≠ .busy → us.length ≤ s.params.inCap →
    ∃ t, core.run (us.length + 1) { s with queue := loadMoves us ++ s.queue } = .next t ∧
      t.input = us ∧ { t with inBuf := s.inBuf, lenIn := s.lenIn } = s

/-- The buffers' own laws (R50, R51): a unit written reads back, every other unit is as before, and the canonical form
is kept. -/
def Obligations.BufferWriteLaws : Prop :=
  ∀ (m : Memory) (i : Nat) (us : List Byte),
    (∀ k < us.length, (m.writeUnits i us).read (i + k) = us[k]?) ∧
    (∀ a, (a < i ∨ i + us.length ≤ a) → (m.writeUnits i us).read a = m.read a) ∧
    (m.wf → (m.writeUnits i us).wf)

/-- While an operation is in progress `OUT` is written by its group steps alone (R50, R60), each writing its own group's
units and no other (R107, R140). It is of the reference machine between START and the end (log 16), no claim about the
operation's end or result, of which it reads nothing (R232, U3). -/
def Obligations.OutWrittenGroupByGroup : Prop :=
  ∀ s t : State, s.Inv → s.status = .busy → step s = .next t → t.status = .busy →
    (t.grp = s.grp ∧ t.outBuf = s.outBuf) ∨
    (s.grp < s.ngrp ∧ t.grp = s.grp + 1 ∧
      (∀ k < outSize s.instr,
        t.outBuf.read (outIndex s.instr s.grp k) = (groupOutput s.instr s.input s.grp)[k]?) ∧
      ∀ a, (∀ k < outSize s.instr, a ≠ outIndex s.instr s.grp k) → t.outBuf.read a = s.outBuf.read a)
end

