-- ==== Sys2Proof/Laws/Alphabet.lean ====
section
/-! SUPPORT. The two tables against each other (R21, R88). -/

namespace Sys2Proof.Machine

/-- The decode table's entry of a digit's character is that digit (R21). -/
@[simp] theorem decEntry_charOf (d : Digit) : decEntry (charOf d) = present d := by
  revert d; decide +kernel

/-- A valid code is the character of its table digit (R21). -/
theorem charOf_of_decEntry_valid (c : Byte) : (decEntry c).valid = true → charOf (decEntry c).digit = c := by
  revert c; decide +kernel

end Sys2Proof.Machine
end

