-- ==== Sys2Proof/Laws/State.lean ====
section
/-! SUPPORT. One lemma for each field and each update of State, true by rfl: no later proof unfolds an update. -/

namespace Sys2Proof.Machine

/-! ### the error entry (R195) -/

@[simp] theorem raiseError_params (e : ErrKind) (idx : Nat) (s : State) : (raiseError e idx s).params = s.params := rfl
@[simp] theorem raiseError_op (e : ErrKind) (idx : Nat) (s : State) : (raiseError e idx s).op = s.op := rfl
@[simp] theorem raiseError_lenIn (e : ErrKind) (idx : Nat) (s : State) : (raiseError e idx s).lenIn = s.lenIn := rfl
@[simp] theorem raiseError_status (e : ErrKind) (idx : Nat) (s : State) : (raiseError e idx s).status = .error := rfl
@[simp] theorem raiseError_err (e : ErrKind) (idx : Nat) (s : State) : (raiseError e idx s).err = e := rfl
@[simp] theorem raiseError_errIdx (e : ErrKind) (idx : Nat) (s : State) : (raiseError e idx s).errIdx = trunc s.params idx := rfl
@[simp] theorem raiseError_lenOut (e : ErrKind) (idx : Nat) (s : State) : (raiseError e idx s).lenOut = 0 := rfl
@[simp] theorem raiseError_acc (e : ErrKind) (idx : Nat) (s : State) : (raiseError e idx s).acc = s.acc := rfl
@[simp] theorem raiseError_grp (e : ErrKind) (idx : Nat) (s : State) : (raiseError e idx s).grp = s.grp := rfl
@[simp] theorem raiseError_ngrp (e : ErrKind) (idx : Nat) (s : State) : (raiseError e idx s).ngrp = s.ngrp := rfl
@[simp] theorem raiseError_pad (e : ErrKind) (idx : Nat) (s : State) : (raiseError e idx s).pad = s.pad := rfl
@[simp] theorem raiseError_inBuf (e : ErrKind) (idx : Nat) (s : State) : (raiseError e idx s).inBuf = s.inBuf := rfl
@[simp] theorem raiseError_outBuf (e : ErrKind) (idx : Nat) (s : State) : (raiseError e idx s).outBuf = s.outBuf := rfl
@[simp] theorem raiseError_queue (e : ErrKind) (idx : Nat) (s : State) : (raiseError e idx s).queue = s.queue := rfl
@[simp] theorem raiseError_reply (e : ErrKind) (idx : Nat) (s : State) : (raiseError e idx s).reply = s.reply := rfl
@[simp] theorem raiseError_wrong (e : ErrKind) (idx : Nat) (s : State) : (raiseError e idx s).wrong = s.wrong := rfl
@[simp] theorem raiseError_epoch (e : ErrKind) (idx : Nat) (s : State) : (raiseError e idx s).epoch = s.epoch := rfl
@[simp] theorem raiseError_tick (e : ErrKind) (idx : Nat) (s : State) : (raiseError e idx s).tick = s.tick + 1 := rfl

/-! ### the reset step (R220) -/

@[simp] theorem resetStep_params (s : State) : (resetStep s).params = s.params := rfl
@[simp] theorem resetStep_op (s : State) : (resetStep s).op = 0#1 := rfl
@[simp] theorem resetStep_lenIn (s : State) : (resetStep s).lenIn = 0 := rfl
@[simp] theorem resetStep_status (s : State) : (resetStep s).status = .idle := rfl
@[simp] theorem resetStep_err (s : State) : (resetStep s).err = .none := rfl
@[simp] theorem resetStep_errIdx (s : State) : (resetStep s).errIdx = 0 := rfl
@[simp] theorem resetStep_lenOut (s : State) : (resetStep s).lenOut = 0 := rfl
@[simp] theorem resetStep_acc (s : State) : (resetStep s).acc = Config.freeAcc s.tick := rfl
@[simp] theorem resetStep_grp (s : State) : (resetStep s).grp = trunc s.params (Config.freeGrp s.tick) := rfl
@[simp] theorem resetStep_ngrp (s : State) : (resetStep s).ngrp = trunc s.params (Config.freeNgrp s.tick) := rfl
@[simp] theorem resetStep_pad (s : State) : (resetStep s).pad = Config.freePad s.tick := rfl
@[simp] theorem resetStep_inBuf (s : State) : (resetStep s).inBuf = [] := rfl
@[simp] theorem resetStep_outBuf (s : State) : (resetStep s).outBuf = [] := rfl
@[simp] theorem resetStep_queue (s : State) : (resetStep s).queue = s.queue := rfl
@[simp] theorem resetStep_reply (s : State) : (resetStep s).reply = s.reply := rfl
@[simp] theorem resetStep_wrong (s : State) : (resetStep s).wrong = s.wrong := rfl
@[simp] theorem resetStep_epoch (s : State) : (resetStep s).epoch = s.epoch + 1 := rfl
@[simp] theorem resetStep_tick (s : State) : (resetStep s).tick = s.tick + 1 := rfl

/-! ### the unspecified internal registers (U1) -/

@[simp] theorem freeInternals_params (s : State) : (freeInternals s).params = s.params := rfl
@[simp] theorem freeInternals_op (s : State) : (freeInternals s).op = s.op := rfl
@[simp] theorem freeInternals_lenIn (s : State) : (freeInternals s).lenIn = s.lenIn := rfl
@[simp] theorem freeInternals_status (s : State) : (freeInternals s).status = s.status := rfl
@[simp] theorem freeInternals_err (s : State) : (freeInternals s).err = s.err := rfl
@[simp] theorem freeInternals_errIdx (s : State) : (freeInternals s).errIdx = s.errIdx := rfl
@[simp] theorem freeInternals_lenOut (s : State) : (freeInternals s).lenOut = s.lenOut := rfl
@[simp] theorem freeInternals_acc (s : State) : (freeInternals s).acc = Config.freeAcc s.tick := rfl
@[simp] theorem freeInternals_grp (s : State) : (freeInternals s).grp = trunc s.params (Config.freeGrp s.tick) := rfl
@[simp] theorem freeInternals_ngrp (s : State) : (freeInternals s).ngrp = trunc s.params (Config.freeNgrp s.tick) := rfl
@[simp] theorem freeInternals_pad (s : State) : (freeInternals s).pad = Config.freePad s.tick := rfl
@[simp] theorem freeInternals_inBuf (s : State) : (freeInternals s).inBuf = s.inBuf := rfl
@[simp] theorem freeInternals_outBuf (s : State) : (freeInternals s).outBuf = s.outBuf := rfl
@[simp] theorem freeInternals_queue (s : State) : (freeInternals s).queue = s.queue := rfl
@[simp] theorem freeInternals_reply (s : State) : (freeInternals s).reply = s.reply := rfl
@[simp] theorem freeInternals_wrong (s : State) : (freeInternals s).wrong = s.wrong := rfl
@[simp] theorem freeInternals_epoch (s : State) : (freeInternals s).epoch = s.epoch := rfl
@[simp] theorem freeInternals_tick (s : State) : (freeInternals s).tick = s.tick := rfl

/-! ### the beginning of an operation (R224) -/

@[simp] theorem beginOperation_params (i : Instr) (s : State) : (beginOperation i s).params = s.params := rfl
@[simp] theorem beginOperation_op (i : Instr) (s : State) : (beginOperation i s).op = s.op := rfl
@[simp] theorem beginOperation_lenIn (i : Instr) (s : State) : (beginOperation i s).lenIn = s.lenIn := rfl
@[simp] theorem beginOperation_status (i : Instr) (s : State) : (beginOperation i s).status = .busy := rfl
@[simp] theorem beginOperation_err (i : Instr) (s : State) : (beginOperation i s).err = .none := rfl
@[simp] theorem beginOperation_errIdx (i : Instr) (s : State) : (beginOperation i s).errIdx = 0 := rfl
@[simp] theorem beginOperation_lenOut (i : Instr) (s : State) : (beginOperation i s).lenOut = 0 := rfl
@[simp] theorem beginOperation_acc (i : Instr) (s : State) : (beginOperation i s).acc = s.acc := rfl
@[simp] theorem beginOperation_grp (i : Instr) (s : State) : (beginOperation i s).grp = 0 := rfl
@[simp] theorem beginOperation_ngrp (i : Instr) (s : State) : (beginOperation i s).ngrp = trunc s.params (groupsOf i s.lenIn) := rfl
@[simp] theorem beginOperation_pad (i : Instr) (s : State) : (beginOperation i s).pad = BitVec.ofNat 3 (padOf i s.lenIn) := rfl
@[simp] theorem beginOperation_inBuf (i : Instr) (s : State) : (beginOperation i s).inBuf = s.inBuf := rfl
@[simp] theorem beginOperation_outBuf (i : Instr) (s : State) : (beginOperation i s).outBuf = s.outBuf := rfl
@[simp] theorem beginOperation_queue (i : Instr) (s : State) : (beginOperation i s).queue = s.queue := rfl
@[simp] theorem beginOperation_reply (i : Instr) (s : State) : (beginOperation i s).reply = s.reply := rfl
@[simp] theorem beginOperation_wrong (i : Instr) (s : State) : (beginOperation i s).wrong = s.wrong := rfl
@[simp] theorem beginOperation_epoch (i : Instr) (s : State) : (beginOperation i s).epoch = s.epoch := rfl
@[simp] theorem beginOperation_tick (i : Instr) (s : State) : (beginOperation i s).tick = s.tick + 1 := rfl

/-! ### FINISH (R109, R142) -/

@[simp] theorem finishOperation_params (i : Instr) (s : State) : (finishOperation i s).params = s.params := rfl
@[simp] theorem finishOperation_op (i : Instr) (s : State) : (finishOperation i s).op = s.op := rfl
@[simp] theorem finishOperation_lenIn (i : Instr) (s : State) : (finishOperation i s).lenIn = s.lenIn := rfl
@[simp] theorem finishOperation_status (i : Instr) (s : State) : (finishOperation i s).status = .done := rfl
@[simp] theorem finishOperation_err (i : Instr) (s : State) : (finishOperation i s).err = .none := rfl
@[simp] theorem finishOperation_errIdx (i : Instr) (s : State) : (finishOperation i s).errIdx = 0 := rfl
@[simp] theorem finishOperation_lenOut (i : Instr) (s : State) : (finishOperation i s).lenOut = trunc s.params (outSize i * s.ngrp - s.pad.toNat) := rfl
@[simp] theorem finishOperation_acc (i : Instr) (s : State) : (finishOperation i s).acc = s.acc := rfl
@[simp] theorem finishOperation_grp (i : Instr) (s : State) : (finishOperation i s).grp = s.grp := rfl
@[simp] theorem finishOperation_ngrp (i : Instr) (s : State) : (finishOperation i s).ngrp = s.ngrp := rfl
@[simp] theorem finishOperation_pad (i : Instr) (s : State) : (finishOperation i s).pad = s.pad := rfl
@[simp] theorem finishOperation_inBuf (i : Instr) (s : State) : (finishOperation i s).inBuf = s.inBuf := rfl
@[simp] theorem finishOperation_outBuf (i : Instr) (s : State) : (finishOperation i s).outBuf = s.outBuf := rfl
@[simp] theorem finishOperation_queue (i : Instr) (s : State) : (finishOperation i s).queue = s.queue := rfl
@[simp] theorem finishOperation_reply (i : Instr) (s : State) : (finishOperation i s).reply = s.reply := rfl
@[simp] theorem finishOperation_wrong (i : Instr) (s : State) : (finishOperation i s).wrong = s.wrong := rfl
@[simp] theorem finishOperation_epoch (i : Instr) (s : State) : (finishOperation i s).epoch = s.epoch := rfl
@[simp] theorem finishOperation_tick (i : Instr) (s : State) : (finishOperation i s).tick = s.tick + 1 := rfl

/-! ### the end of a group step (R107, R108, R140, R141) -/

@[simp] theorem storeGroup_params (i : Instr) (a : Acc) (us : List Byte) (s : State) : (storeGroup i a us s).params = s.params := rfl
@[simp] theorem storeGroup_op (i : Instr) (a : Acc) (us : List Byte) (s : State) : (storeGroup i a us s).op = s.op := rfl
@[simp] theorem storeGroup_lenIn (i : Instr) (a : Acc) (us : List Byte) (s : State) : (storeGroup i a us s).lenIn = s.lenIn := rfl
@[simp] theorem storeGroup_status (i : Instr) (a : Acc) (us : List Byte) (s : State) : (storeGroup i a us s).status = s.status := rfl
@[simp] theorem storeGroup_err (i : Instr) (a : Acc) (us : List Byte) (s : State) : (storeGroup i a us s).err = s.err := rfl
@[simp] theorem storeGroup_errIdx (i : Instr) (a : Acc) (us : List Byte) (s : State) : (storeGroup i a us s).errIdx = s.errIdx := rfl
@[simp] theorem storeGroup_lenOut (i : Instr) (a : Acc) (us : List Byte) (s : State) : (storeGroup i a us s).lenOut = s.lenOut := rfl
@[simp] theorem storeGroup_acc (i : Instr) (a : Acc) (us : List Byte) (s : State) : (storeGroup i a us s).acc = a := rfl
@[simp] theorem storeGroup_grp (i : Instr) (a : Acc) (us : List Byte) (s : State) : (storeGroup i a us s).grp = trunc s.params (s.grp + 1) := rfl
@[simp] theorem storeGroup_ngrp (i : Instr) (a : Acc) (us : List Byte) (s : State) : (storeGroup i a us s).ngrp = s.ngrp := rfl
@[simp] theorem storeGroup_pad (i : Instr) (a : Acc) (us : List Byte) (s : State) : (storeGroup i a us s).pad = s.pad := rfl
@[simp] theorem storeGroup_inBuf (i : Instr) (a : Acc) (us : List Byte) (s : State) : (storeGroup i a us s).inBuf = s.inBuf := rfl
@[simp] theorem storeGroup_outBuf (i : Instr) (a : Acc) (us : List Byte) (s : State) : (storeGroup i a us s).outBuf = s.outBuf.writeUnits (outIndex i s.grp 0) us := rfl
@[simp] theorem storeGroup_queue (i : Instr) (a : Acc) (us : List Byte) (s : State) : (storeGroup i a us s).queue = s.queue := rfl
@[simp] theorem storeGroup_reply (i : Instr) (a : Acc) (us : List Byte) (s : State) : (storeGroup i a us s).reply = s.reply := rfl
@[simp] theorem storeGroup_wrong (i : Instr) (a : Acc) (us : List Byte) (s : State) : (storeGroup i a us s).wrong = s.wrong := rfl
@[simp] theorem storeGroup_epoch (i : Instr) (a : Acc) (us : List Byte) (s : State) : (storeGroup i a us s).epoch = s.epoch := rfl
@[simp] theorem storeGroup_tick (i : Instr) (a : Acc) (us : List Byte) (s : State) : (storeGroup i a us s).tick = s.tick + 1 := rfl

/-! ### a write of `OP` (R23) -/

@[simp] theorem writeOp_params (v : Nat) (s : State) : (writeOp v s).params = s.params := rfl
@[simp] theorem writeOp_op (v : Nat) (s : State) : (writeOp v s).op = opBits v := rfl
@[simp] theorem writeOp_lenIn (v : Nat) (s : State) : (writeOp v s).lenIn = s.lenIn := rfl
@[simp] theorem writeOp_status (v : Nat) (s : State) : (writeOp v s).status = s.status := rfl
@[simp] theorem writeOp_err (v : Nat) (s : State) : (writeOp v s).err = s.err := rfl
@[simp] theorem writeOp_errIdx (v : Nat) (s : State) : (writeOp v s).errIdx = s.errIdx := rfl
@[simp] theorem writeOp_lenOut (v : Nat) (s : State) : (writeOp v s).lenOut = s.lenOut := rfl
@[simp] theorem writeOp_acc (v : Nat) (s : State) : (writeOp v s).acc = s.acc := rfl
@[simp] theorem writeOp_grp (v : Nat) (s : State) : (writeOp v s).grp = s.grp := rfl
@[simp] theorem writeOp_ngrp (v : Nat) (s : State) : (writeOp v s).ngrp = s.ngrp := rfl
@[simp] theorem writeOp_pad (v : Nat) (s : State) : (writeOp v s).pad = s.pad := rfl
@[simp] theorem writeOp_inBuf (v : Nat) (s : State) : (writeOp v s).inBuf = s.inBuf := rfl
@[simp] theorem writeOp_outBuf (v : Nat) (s : State) : (writeOp v s).outBuf = s.outBuf := rfl
@[simp] theorem writeOp_queue (v : Nat) (s : State) : (writeOp v s).queue = s.queue := rfl
@[simp] theorem writeOp_reply (v : Nat) (s : State) : (writeOp v s).reply = s.reply := rfl
@[simp] theorem writeOp_wrong (v : Nat) (s : State) : (writeOp v s).wrong = s.wrong := rfl
@[simp] theorem writeOp_epoch (v : Nat) (s : State) : (writeOp v s).epoch = s.epoch := rfl
@[simp] theorem writeOp_tick (v : Nat) (s : State) : (writeOp v s).tick = s.tick := rfl

/-! ### a write of `LEN_IN` (R24) -/

@[simp] theorem writeLenIn_params (v : Nat) (s : State) : (writeLenIn v s).params = s.params := rfl
@[simp] theorem writeLenIn_op (v : Nat) (s : State) : (writeLenIn v s).op = s.op := rfl
@[simp] theorem writeLenIn_lenIn (v : Nat) (s : State) : (writeLenIn v s).lenIn = trunc s.params v := rfl
@[simp] theorem writeLenIn_status (v : Nat) (s : State) : (writeLenIn v s).status = s.status := rfl
@[simp] theorem writeLenIn_err (v : Nat) (s : State) : (writeLenIn v s).err = s.err := rfl
@[simp] theorem writeLenIn_errIdx (v : Nat) (s : State) : (writeLenIn v s).errIdx = s.errIdx := rfl
@[simp] theorem writeLenIn_lenOut (v : Nat) (s : State) : (writeLenIn v s).lenOut = s.lenOut := rfl
@[simp] theorem writeLenIn_acc (v : Nat) (s : State) : (writeLenIn v s).acc = s.acc := rfl
@[simp] theorem writeLenIn_grp (v : Nat) (s : State) : (writeLenIn v s).grp = s.grp := rfl
@[simp] theorem writeLenIn_ngrp (v : Nat) (s : State) : (writeLenIn v s).ngrp = s.ngrp := rfl
@[simp] theorem writeLenIn_pad (v : Nat) (s : State) : (writeLenIn v s).pad = s.pad := rfl
@[simp] theorem writeLenIn_inBuf (v : Nat) (s : State) : (writeLenIn v s).inBuf = s.inBuf := rfl
@[simp] theorem writeLenIn_outBuf (v : Nat) (s : State) : (writeLenIn v s).outBuf = s.outBuf := rfl
@[simp] theorem writeLenIn_queue (v : Nat) (s : State) : (writeLenIn v s).queue = s.queue := rfl
@[simp] theorem writeLenIn_reply (v : Nat) (s : State) : (writeLenIn v s).reply = s.reply := rfl
@[simp] theorem writeLenIn_wrong (v : Nat) (s : State) : (writeLenIn v s).wrong = s.wrong := rfl
@[simp] theorem writeLenIn_epoch (v : Nat) (s : State) : (writeLenIn v s).epoch = s.epoch := rfl
@[simp] theorem writeLenIn_tick (v : Nat) (s : State) : (writeLenIn v s).tick = s.tick := rfl

/-! ### a write of `IN[k]` (R34) -/

@[simp] theorem writeIn_params (k v : Nat) (s : State) : (writeIn k v s).params = s.params := rfl
@[simp] theorem writeIn_op (k v : Nat) (s : State) : (writeIn k v s).op = s.op := rfl
@[simp] theorem writeIn_lenIn (k v : Nat) (s : State) : (writeIn k v s).lenIn = s.lenIn := rfl
@[simp] theorem writeIn_status (k v : Nat) (s : State) : (writeIn k v s).status = s.status := rfl
@[simp] theorem writeIn_err (k v : Nat) (s : State) : (writeIn k v s).err = s.err := rfl
@[simp] theorem writeIn_errIdx (k v : Nat) (s : State) : (writeIn k v s).errIdx = s.errIdx := rfl
@[simp] theorem writeIn_lenOut (k v : Nat) (s : State) : (writeIn k v s).lenOut = s.lenOut := rfl
@[simp] theorem writeIn_acc (k v : Nat) (s : State) : (writeIn k v s).acc = s.acc := rfl
@[simp] theorem writeIn_grp (k v : Nat) (s : State) : (writeIn k v s).grp = s.grp := rfl
@[simp] theorem writeIn_ngrp (k v : Nat) (s : State) : (writeIn k v s).ngrp = s.ngrp := rfl
@[simp] theorem writeIn_pad (k v : Nat) (s : State) : (writeIn k v s).pad = s.pad := rfl
@[simp] theorem writeIn_inBuf (k v : Nat) (s : State) : (writeIn k v s).inBuf = s.inBuf.write k (BitVec.ofNat 8 v) := rfl
@[simp] theorem writeIn_outBuf (k v : Nat) (s : State) : (writeIn k v s).outBuf = s.outBuf := rfl
@[simp] theorem writeIn_queue (k v : Nat) (s : State) : (writeIn k v s).queue = s.queue := rfl
@[simp] theorem writeIn_reply (k v : Nat) (s : State) : (writeIn k v s).reply = s.reply := rfl
@[simp] theorem writeIn_wrong (k v : Nat) (s : State) : (writeIn k v s).wrong = s.wrong := rfl
@[simp] theorem writeIn_epoch (k v : Nat) (s : State) : (writeIn k v s).epoch = s.epoch := rfl
@[simp] theorem writeIn_tick (k v : Nat) (s : State) : (writeIn k v s).tick = s.tick := rfl

/-! ### taking up a statement (R94): nothing of the core changes -/

@[simp] theorem takeUpStmt_params (t : Stmt) (s : State) : (takeUpStmt t s).params = s.params := rfl
@[simp] theorem takeUpStmt_op (t : Stmt) (s : State) : (takeUpStmt t s).op = s.op := rfl
@[simp] theorem takeUpStmt_lenIn (t : Stmt) (s : State) : (takeUpStmt t s).lenIn = s.lenIn := rfl
@[simp] theorem takeUpStmt_status (t : Stmt) (s : State) : (takeUpStmt t s).status = s.status := rfl
@[simp] theorem takeUpStmt_err (t : Stmt) (s : State) : (takeUpStmt t s).err = s.err := rfl
@[simp] theorem takeUpStmt_errIdx (t : Stmt) (s : State) : (takeUpStmt t s).errIdx = s.errIdx := rfl
@[simp] theorem takeUpStmt_lenOut (t : Stmt) (s : State) : (takeUpStmt t s).lenOut = s.lenOut := rfl
@[simp] theorem takeUpStmt_acc (t : Stmt) (s : State) : (takeUpStmt t s).acc = s.acc := rfl
@[simp] theorem takeUpStmt_grp (t : Stmt) (s : State) : (takeUpStmt t s).grp = s.grp := rfl
@[simp] theorem takeUpStmt_ngrp (t : Stmt) (s : State) : (takeUpStmt t s).ngrp = s.ngrp := rfl
@[simp] theorem takeUpStmt_pad (t : Stmt) (s : State) : (takeUpStmt t s).pad = s.pad := rfl
@[simp] theorem takeUpStmt_inBuf (t : Stmt) (s : State) : (takeUpStmt t s).inBuf = s.inBuf := rfl
@[simp] theorem takeUpStmt_outBuf (t : Stmt) (s : State) : (takeUpStmt t s).outBuf = s.outBuf := rfl
@[simp] theorem takeUpStmt_reply (t : Stmt) (s : State) : (takeUpStmt t s).reply = s.reply := rfl
@[simp] theorem takeUpStmt_epoch (t : Stmt) (s : State) : (takeUpStmt t s).epoch = s.epoch := rfl
@[simp] theorem takeUpStmt_tick (t : Stmt) (s : State) : (takeUpStmt t s).tick = s.tick := rfl
@[simp] theorem takeUpStmt_queue (t : Stmt) (s : State) : (takeUpStmt t s).queue = stmtMoves s t ++ s.queue := rfl
@[simp] theorem takeUpStmt_wrong (t : Stmt) (s : State) : (takeUpStmt t s).wrong = (s.wrong || !stmtMet s t) := rfl

/-! ### what a claim about an operation may read at its end (R232) -/

@[simp] theorem specified_params (s : State) : s.specified.params = s.params := rfl
@[simp] theorem specified_op (s : State) : s.specified.op = s.op := rfl
@[simp] theorem specified_lenIn (s : State) : s.specified.lenIn = s.lenIn := rfl
@[simp] theorem specified_status (s : State) : s.specified.status = s.status := rfl
@[simp] theorem specified_err (s : State) : s.specified.err = s.err := rfl
@[simp] theorem specified_errIdx (s : State) : s.specified.errIdx = s.errIdx := rfl
@[simp] theorem specified_lenOut (s : State) : s.specified.lenOut = s.lenOut := rfl
@[simp] theorem specified_inBuf (s : State) : s.specified.inBuf = s.inBuf := rfl
@[simp] theorem specified_queue (s : State) : s.specified.queue = s.queue := rfl
@[simp] theorem specified_reply (s : State) : s.specified.reply = s.reply := rfl
@[simp] theorem specified_wrong (s : State) : s.specified.wrong = s.wrong := rfl
@[simp] theorem specified_epoch (s : State) : s.specified.epoch = s.epoch := rfl
@[simp] theorem specified_outBuf (s : State) : s.specified.outBuf = s.outBuf.below s.lenOut := rfl

/-! ### START (R224): what it leaves unchanged on both branches -/

@[simp] theorem startOperation_params (i : Instr) (s : State) : (startOperation i s).params = s.params := by
  unfold startOperation; split <;> rfl

@[simp] theorem startOperation_op (i : Instr) (s : State) : (startOperation i s).op = s.op := by
  unfold startOperation; split <;> rfl

@[simp] theorem startOperation_lenIn (i : Instr) (s : State) : (startOperation i s).lenIn = s.lenIn := by
  unfold startOperation; split <;> rfl

@[simp] theorem startOperation_inBuf (i : Instr) (s : State) : (startOperation i s).inBuf = s.inBuf := by
  unfold startOperation; split <;> rfl

@[simp] theorem startOperation_outBuf (i : Instr) (s : State) : (startOperation i s).outBuf = s.outBuf := by
  unfold startOperation; split <;> rfl

@[simp] theorem startOperation_queue (i : Instr) (s : State) : (startOperation i s).queue = s.queue := by
  unfold startOperation; split <;> rfl

@[simp] theorem startOperation_reply (i : Instr) (s : State) : (startOperation i s).reply = s.reply := by
  unfold startOperation; split <;> rfl

@[simp] theorem startOperation_wrong (i : Instr) (s : State) : (startOperation i s).wrong = s.wrong := by
  unfold startOperation; split <;> rfl

@[simp] theorem startOperation_epoch (i : Instr) (s : State) : (startOperation i s).epoch = s.epoch := by
  unfold startOperation; split <;> rfl

@[simp] theorem startOperation_tick (i : Instr) (s : State) : (startOperation i s).tick = s.tick + 1 := by
  unfold startOperation; split <;> rfl

/-- START of an operation whose operands fit begins it (R224). -/
theorem startOperation_of_fits {i : Instr} {s : State} (h : tooLarge s.params i s.lenIn = false) :
    startOperation i s = beginOperation i s := by
  simp [startOperation, h]

/-- START of an operation whose operands do not fit is the error entry (R192, R224). -/
theorem startOperation_of_tooLarge {i : Instr} {s : State} (h : tooLarge s.params i s.lenIn = true) :
    startOperation i s = raiseError .inputTooLarge 0 (freeInternals s) := by
  simp [startOperation, h]

end Sys2Proof.Machine
end

