-- ==== Sys2Proof/Laws/Lengths.lean ====
section
/-! SUPPORT. The length computations (R32, R33, R57, R179) and the untruncated output by index (R100, R130). -/

namespace Sys2Proof.Machine

/-- A value a length register can hold is stored whole (R24). -/
theorem trunc_of_lt {p : Params} {v : Nat} (h : v < 2 ^ p.lenBits) : trunc p v = v := Nat.mod_eq_of_lt h

theorem trunc_lt (p : Params) (v : Nat) : trunc p v < 2 ^ p.lenBits := Nat.mod_lt _ (Nat.two_pow_pos _)

theorem groupsOf_le (i : Instr) (n : Nat) : groupsOf i n ≤ n := by
  cases i <;> simp only [groupsOf, inSize, ceilQuot] <;> omega

theorem padOf_le (i : Instr) (n : Nat) : padOf i n ≤ 4 := by
  cases i <;> simp only [padOf, inSize] <;> omega

/-- `PAD` holds the pad size whole (R33). -/
@[simp] theorem padOf_toNat (i : Instr) (n : Nat) : (BitVec.ofNat 3 (padOf i n)).toNat = padOf i n := by
  have := padOf_le i n
  simp only [BitVec.toNat_ofNat]; omega

/-- The untruncated output is no shorter than the pad size (R109, R142). -/
theorem padOf_le_need (i : Instr) (n : Nat) : padOf i n ≤ outSize i * groupsOf i n := by
  cases i <;> simp only [padOf, groupsOf, inSize, outSize, ceilQuot] <;> omega

/-- The groups cover the padded input exactly (R55). -/
theorem inSize_mul_groupsOf (i : Instr) (n : Nat) : inSize i * groupsOf i n = n + padOf i n := by
  cases i <;> simp only [padOf, groupsOf, inSize, ceilQuot] <;> omega

theorem tooLarge_eq_false {p : Params} {i : Instr} {n : Nat} :
    tooLarge p i n = false ↔ n ≤ p.inCap ∧ outSize i * groupsOf i n ≤ p.outCap := by
  simp [tooLarge]

/-- No group of an operation that fits has an index outside its buffer (R57). -/
theorem groupInRange_of_fits {i : Instr} {s : State} (h : tooLarge s.params i s.lenIn = false)
    (hg : s.grp < groupsOf i s.lenIn) : groupInRange i s = true := by
  obtain ⟨h1, h2⟩ := tooLarge_eq_false.1 h
  have h3 : outSize i * s.grp + outSize i ≤ outSize i * groupsOf i s.lenIn := by
    rw [← Nat.mul_succ]; exact Nat.mul_le_mul_left _ hg
  simp only [groupInRange, Bool.and_eq_true, decide_eq_true_eq, outIndex]
  exact ⟨Nat.le_trans (Nat.min_le_right _ _) h1,
    decide_eq_true (Nat.le_trans h3 h2)⟩

/-- Pieces of one size: the piece `g` stands from index `c * g`. -/
theorem getElem?_flatMap_range {α : Type} (f : Nat → List α) {c : Nat} (hc : ∀ g, (f g).length = c) (n g k : Nat)
    (hg : g < n) (hk : k < c) : ((List.range n).flatMap f)[c * g + k]? = (f g)[k]? := by
  induction n with
  | zero => omega
  | succ n ih =>
    have hlen : ((List.range n).flatMap f).length = c * n := by
      simp [List.length_flatMap, hc, Nat.mul_comm]
    rw [List.range_succ, List.flatMap_append, List.flatMap_singleton]
    rcases Nat.lt_succ_iff_lt_or_eq.1 hg with h | rfl
    · rw [List.getElem?_append_left, ih h]
      rw [hlen]
      calc c * g + k < c * g + c := by omega
        _ = c * (g + 1) := (Nat.mul_succ c g).symm
        _ ≤ c * n := Nat.mul_le_mul_left _ h
    · rw [List.getElem?_append_right (by rw [hlen]; omega), hlen, show c * g + k - c * g = k by omega]

theorem groupOutput_length (i : Instr) (us : List Byte) (g : Nat) : (groupOutput i us g).length = outSize i := by
  cases i <;> rfl

theorem fullOutput_eq (i : Instr) (us : List Byte) :
    fullOutput i us = (List.range (groupsOf i us.length)).flatMap (groupOutput i us) := by
  cases i <;> rfl

@[simp] theorem fullOutput_length (i : Instr) (us : List Byte) :
    (fullOutput i us).length = outSize i * groupsOf i us.length := by
  simp [fullOutput_eq, List.length_flatMap, groupOutput_length, Nat.mul_comm]

/-- Unit `k` of group `g` stands at the group's index (R55). -/
theorem fullOutput_getElem? (i : Instr) (us : List Byte) {g k : Nat} (hg : g < groupsOf i us.length)
    (hk : k < outSize i) : (fullOutput i us)[outSize i * g + k]? = (groupOutput i us g)[k]? := by
  rw [fullOutput_eq]
  exact getElem?_flatMap_range _ (groupOutput_length i us) _ _ _ hg hk

@[simp] theorem encodeBytes_length (bs : List Byte) : (encodeBytes bs).length = resultLen .encode bs.length := by
  have h := fullOutput_length .encode bs
  simp only [fullOutput] at h
  simp only [encodeBytes, List.length_take, h, resultLen]
  omega

@[simp] theorem decodeChars_length (cs : List Byte) : (decodeChars cs).length = resultLen .decode cs.length := by
  have h := fullOutput_length .decode cs
  simp only [fullOutput] at h
  simp only [decodeChars, List.length_take, h, resultLen]
  omega

end Sys2Proof.Machine
end

