-- ==== Sys2Proof/Laws/Radix.lean ====
section
/-! SUPPORT. The arithmetic of a group (R176 to R178): the values' bounds, and each conversion against its inverse. -/

namespace Sys2Proof.Machine

@[simp] theorem radixDigit_val (v k : Nat) : (radixDigit v k).val = v / 85 ^ (4 - k) % 85 := rfl

/-- A byte group's value fits 32 bits (R81). -/
theorem byteValue_lt (b : ByteGroup) : byteValue b < 2 ^ 32 := by
  have h0 := b.b0.isLt; have h1 := b.b1.isLt; have h2 := b.b2.isLt; have h3 := b.b3.isLt
  simp only [byteValue]; omega

/-- A digit group's value is below `85^5` (R82). -/
theorem digitValue_lt (d : DigitGroup) : digitValue d < 85 ^ 5 := by
  have h0 := d.x0.isLt; have h1 := d.x1.isLt; have h2 := d.x2.isLt; have h3 := d.x3.isLt; have h4 := d.x4.isLt
  simp only [digitValue]; omega

/-- The digits of a value below `85^5` have that value (R176). -/
theorem digitValue_radixDigits {v : Nat} (h : v < 85 ^ 5) : digitValue (radixDigits v) = v := by
  simp only [digitValue, radixDigits, radixDigit_val, Nat.reducePow, Nat.reduceSub, Nat.div_one] at *
  omega

/-- The value of a digit group has those digits (R176). -/
theorem radixDigits_digitValue (d : DigitGroup) : radixDigits (digitValue d) = d := by
  obtain ⟨d0, d1, d2, d3, d4⟩ := d
  have h0 := d0.isLt; have h1 := d1.isLt; have h2 := d2.isLt; have h3 := d3.isLt; have h4 := d4.isLt
  simp only [radixDigits, digitValue, Five.mk.injEq, Fin.ext_iff, radixDigit_val, Nat.reducePow, Nat.reduceSub,
    Nat.div_one]
  omega

@[simp] theorem valueByte_toNat (v k : Nat) : (valueByte v k).toNat = v / 256 ^ (3 - k) % 256 := by
  simp [valueByte]

/-- The bytes of a byte group's value are the group (R52). -/
theorem valueBytes_byteValue (b : ByteGroup) : valueBytes (byteValue b) = b := by
  obtain ⟨b0, b1, b2, b3⟩ := b
  have h0 := b0.isLt; have h1 := b1.isLt; have h2 := b2.isLt; have h3 := b3.isLt
  simp only [valueBytes, byteValue, ByteGroup.mk.injEq, BitVec.toNat_eq, valueByte_toNat, Nat.reducePow, Nat.reduceSub,
    Nat.div_one]
  omega

/-- `ACC` after ASSEMBLE holds the group's value exactly (R104). -/
@[simp] theorem encAssemble_toNat (b : ByteGroup) : (encAssemble b).toNat = byteValue b := by
  have := byteValue_lt b
  simp only [encAssemble, BitVec.toNat_ofNat]; omega

/-- FETCH's group through ASSEMBLE, RADIX and SUBST is `enc_group` (R101, R104 to R106). -/
theorem encSubst_encRadix_encAssemble (b : ByteGroup) : encSubst (encRadix (encAssemble b)) = encGroup b := by
  simp [encSubst, encRadix, encGroup]

/-- The big-endian bytes of `ACC` are the bytes of its value (R139). -/
theorem decSplit_eq (a : Acc) : decSplit a = valueBytes a.toNat := by
  simp only [decSplit, valueBytes, ByteGroup.mk.injEq, BitVec.toNat_eq, valueByte_toNat, BitVec.extractLsb'_toNat,
    Nat.shiftRight_eq_div_pow, Nat.reducePow, Nat.reduceSub]
  trivial

/-- The bytes of a value do not depend on its bits 32 and above (R138). -/
theorem valueBytes_mod (v : Nat) : valueBytes (v % 2 ^ 32) = valueBytes v := by
  simp only [valueBytes, ByteGroup.mk.injEq, BitVec.toNat_eq, valueByte_toNat, Nat.reducePow, Nat.reduceSub]
  omega

@[simp] theorem decAccum_toNat (d : DigitGroup) : (decAccum d).toNat = digitValue d % 2 ^ 32 := by
  simp [decAccum]

/-- LOOKUP's digits through ACCUM and SPLIT are `dec_group` (R131, R137 to R139). -/
theorem decSplit_decAccum (d : DigitGroup) : decSplit (decAccum d) = decGroup d := by
  rw [decSplit_eq, decAccum_toNat, valueBytes_mod, decGroup]

/-- Character `k` of `enc_group` (R101). The value is generalised first, so that nothing unfolds its products. -/
theorem encGroup_getElem? (b : ByteGroup) {k : Nat} (hk : k < 5) :
    (encGroup b).toList[k]? = some (charOf (radixDigit (byteValue b) k)) := by
  rw [encGroup]
  generalize byteValue b = v
  match k, hk with
  | 0, _ => rfl
  | 1, _ => rfl
  | 2, _ => rfl
  | 3, _ => rfl
  | 4, _ => rfl

/-- Byte `k` of `dec_group` (R131). -/
theorem decGroup_getElem? (d : DigitGroup) {k : Nat} (hk : k < 4) :
    (decGroup d).toList[k]? = some (valueByte (digitValue d) k) := by
  rw [decGroup]
  generalize digitValue d = v
  match k, hk with
  | 0, _ => rfl
  | 1, _ => rfl
  | 2, _ => rfl
  | 3, _ => rfl

/-- Byte `k` of a byte group is byte `k` of its value (R52). -/
theorem byteGroup_getElem? (b : ByteGroup) {k : Nat} (hk : k < 4) :
    b.toList[k]? = some (valueByte (byteValue b) k) := by
  have h := valueBytes_byteValue b
  generalize byteValue b = v at *
  subst h
  match k, hk with
  | 0, _ => rfl
  | 1, _ => rfl
  | 2, _ => rfl
  | 3, _ => rfl

@[simp] theorem Five_toList_length {α : Type} (x : Five α) : x.toList.length = 5 := rfl

@[simp] theorem ByteGroup_toList_length (b : ByteGroup) : b.toList.length = 4 := rfl

end Sys2Proof.Machine
end

