-- ==== Sys2Proof/Laws/Codec.lean ====
section
/-! SUPPORT. The operations as functions: a partial group's round trip (R172), the text and the padded digits by
index (R100, R133), the first invalid character (R194). -/

namespace Sys2Proof.Machine

/-- The leading bytes of a value depend on its leading part alone. -/
theorem valueByte_eq_of_div {x y : Nat} (p k : Nat) (hk : p + k ≤ 3) (h : x / 256 ^ p = y / 256 ^ p) :
    valueByte x k = valueByte y k := by
  have e : ∀ z : Nat, z / 256 ^ (3 - k) = z / 256 ^ p / 256 ^ (3 - k - p) := by
    intro z; rw [Nat.div_div_eq_div_mul, ← Nat.pow_add]; congr 2; omega
  simp only [valueByte, e, h]

/-- A value less than one unit above a multiple has that multiple as its quotient. -/
theorem div_eq_of_near {x y c : Nat} (h : x % c = 0) (h1 : x ≤ y) (h2 : y < x + c) : y / c = x / c := by
  have := Nat.div_add_mod x c
  rw [h, Nat.add_zero] at this
  rw [Nat.div_eq_of_lt_le]
  · rw [Nat.mul_comm]; omega
  · rw [Nat.succ_mul, Nat.mul_comm]; omega

/-- A digit group whose value has the leading part of a byte group decodes to its leading bytes (R172). -/
theorem near_bytes (b : ByteGroup) (m k : Nat) (hm4 : m ≤ 4) (hk : k < m) (d : DigitGroup)
    (h : digitValue d / 256 ^ (4 - m) = byteValue b / 256 ^ (4 - m)) :
      (decGroup d).toList[k]? = b.toList[k]? := by
  rw [decGroup_getElem? d (by omega), byteGroup_getElem? b (by omega), valueByte_eq_of_div (4 - m) k (by omega) h]

/-- Pad digits in place of the dropped digits leave the leading part of the value as it is (R172). -/
theorem near_digits (b0 b1 b2 b3 m V : Nat) (d0 d1 d2 d3 d4 : Digit) (hm : 1 ≤ m) (hm4 : m ≤ 4)
    (hb : V = 2 ^ 24 * b0 + 2 ^ 16 * b1 + 2 ^ 8 * b2 + b3)
    (h1 : m ≤ 1 → b1 = 0) (h2 : m ≤ 2 → b2 = 0) (h3 : m ≤ 3 → b3 = 0)
    (hd : 85 ^ 4 * d0.val + 85 ^ 3 * d1.val + 85 ^ 2 * d2.val + 85 * d3.val + d4.val = V) :
    digitValue ⟨d0, d1, if 2 < m + 1 then d2 else 84, if 3 < m + 1 then d3 else 84, if 4 < m + 1 then d4 else 84⟩
      / 256 ^ (4 - m) = V / 256 ^ (4 - m) := by
  have f0 := d0.isLt
  have f1 := d1.isLt
  have f2 := d2.isLt
  have f3 := d3.isLt
  have f4 := d4.isLt
  have k84 : (84 : Digit).val = 84 := rfl
  have hc : m = 1 ∨ m = 2 ∨ m = 3 ∨ m = 4 := by omega
  rcases hc with rfl | rfl | rfl | rfl <;> simp only [Nat.reduceLT, Nat.reduceAdd, if_true, if_false, Nat.reducePow, Nat.reduceSub] at * <;>
    apply div_eq_of_near <;> simp only [digitValue, k84, Nat.reducePow] at * <;> omega

/-- A partial group comes back: the kept digits, padded, decode to the present bytes (R172). -/
theorem partial_group (b : ByteGroup) (m : Nat) (hm : 1 ≤ m) (hm4 : m ≤ 4)
    (h1 : m ≤ 1 → b.b1.toNat = 0) (h2 : m ≤ 2 → b.b2.toNat = 0) (h3 : m ≤ 3 → b.b3.toNat = 0) (k : Nat) (hk : k < m) :
    (decGroup ⟨radixDigit (byteValue b) 0, radixDigit (byteValue b) 1,
      if 2 < m + 1 then radixDigit (byteValue b) 2 else 84,
      if 3 < m + 1 then radixDigit (byteValue b) 3 else 84,
      if 4 < m + 1 then radixDigit (byteValue b) 4 else 84⟩).toList[k]? = b.toList[k]? := by
  have hv := byteValue_lt b
  have hd := digitValue_radixDigits (v := byteValue b) (Nat.lt_trans hv (by decide))
  simp only [digitValue, radixDigits] at hd
  exact near_bytes b m k hm4 hk _ (near_digits _ _ _ _ m _ _ _ _ _ _ hm hm4 (byteValue.eq_1 b) h1 h2 h3 hd)

/-- Unit `j` of group `g` of the text (R100, R101). -/
theorem encodeBytes_getElem? (bs : List Byte) (g j : Nat) (hg : g < groupsOf .encode bs.length) (hj : j < 5)
    (h : 5 * g + j < resultLen .encode bs.length) :
    (encodeBytes bs)[5 * g + j]? = some (charOf (radixDigit (byteValue (byteGroupAt bs g)) j)) := by
  rw [encodeBytes, List.getElem?_take, if_pos h]
  have := fullOutput_getElem? .encode bs (g := g) (k := j) hg hj
  simp only [fullOutput, outSize, groupOutput] at this
  rw [this, encGroup_getElem? _ hj]

/-- Digit `j` of group `g` of the text, read back with padding (R133). -/
theorem padDigitAt_encode (bs : List Byte) (g j : Nat) (hg : g < groupsOf .encode bs.length) (hj : j < 5) :
    padDigitAt (encodeBytes bs) (5 * g + j) =
      if 5 * g + j < resultLen .encode bs.length then radixDigit (byteValue (byteGroupAt bs g)) j else 84 := by
  unfold padDigitAt
  split
  · next c hc =>
    split
    · next h => rw [encodeBytes_getElem? bs g j hg hj h] at hc; cases hc; simp [digitOf, present]
    · next h => rw [List.getElem?_eq_none (by simpa using h)] at hc; cases hc
  · next hc =>
    split
    · next h => rw [encodeBytes_getElem? bs g j hg hj h] at hc; cases hc
    · rfl

/-- The first unit that is no character of the alphabet (R194). -/
theorem findIdx?_invalid {cs : List Byte} {k : Nat} {c : Byte} (h : cs[k]? = some c) (hc : charValid c = false)
  (hj : ∀ j < k, ∀ d, cs[j]? = some d → charValid d = true) : cs.findIdx? (fun c => !charValid c) = some k := by
  rw [List.findIdx?_eq_some_iff_getElem]
  have hk : k < cs.length := by
    by_contra hk; rw [List.getElem?_eq_none (by omega)] at h; cases h
  refine ⟨hk, ?_, fun j hjk => ?_⟩
  · rw [List.getElem?_eq_getElem hk] at h; cases h; simp [hc]
  · simp [hj j hjk _ (List.getElem?_eq_getElem (by omega))]

end Sys2Proof.Machine
end

