-- ==== Sys2Proof/Laws/Memory.lean ====
section
/-! SUPPORT. The laws of the buffers: read after write, the canonical form, the extent (R50, R51). -/

namespace Sys2Proof.Machine

@[simp] theorem Memory.read_nil (i : Nat) : Memory.read [] i = none := rfl

/-- A read after a write to the same index gives the value written. -/
@[simp] theorem Memory.read_write_same (m : Memory) (i : Nat) (v : Byte) : (m.write i v).read i = some v := by
  induction m with
  | nil => simp [Memory.write, Memory.read]
  | cons c m ih =>
    obtain ⟨a, w⟩ := c
    simp only [Memory.write]
    split
    · simp [Memory.read]
    · split
      · simp [Memory.read]
      · have : a ≠ i := by omega
        simp [Memory.read, this, ih]

/-- A write leaves every other index as it was. -/
theorem Memory.read_write_other (m : Memory) {i j : Nat} (v : Byte) (h : j ≠ i) :
    (m.write i v).read j = m.read j := by
  induction m with
  | nil => simp [Memory.write, Memory.read, Ne.symm h]
  | cons c m ih =>
    obtain ⟨a, w⟩ := c
    simp only [Memory.write]
    split
    · simp [Memory.read, Ne.symm h]
    · split
      · rename_i h1
        subst h1
        simp [Memory.read, Ne.symm h]
      · simp [Memory.read, ih]

theorem Memory.read_write (m : Memory) (i j : Nat) (v : Byte) :
    (m.write i v).read j = if j = i then some v else m.read j := by
  split
  · next h => subst h; simp
  · next h => exact Memory.read_write_other m v h

/-- The indices listed after a write are those listed before and the index written. -/
theorem Memory.mem_write {m : Memory} {i : Nat} {v : Byte} {c : Host.Cell} (h : c ∈ m.write i v) :
    c ∈ m ∨ c.1 = i := by
  induction m with
  | nil => simp [Memory.write] at h; simp [h]
  | cons d m ih =>
    obtain ⟨a, w⟩ := d
    simp only [Memory.write] at h
    split at h
    · rcases List.mem_cons.1 h with rfl | h <;> simp_all
    · split at h
      · rcases List.mem_cons.1 h with rfl | h <;> simp_all
      · rcases List.mem_cons.1 h with rfl | h
        · simp
        · rcases ih h with h | h <;> simp [h]

/-- A write keeps the canonical form. -/
theorem Memory.write_wf {m : Memory} (i : Nat) (v : Byte) (h : m.wf) : (m.write i v).wf := by
  induction m with
  | nil => simp [Memory.write, Memory.wf]
  | cons c m ih =>
    obtain ⟨a, w⟩ := c
    have hm := List.pairwise_cons.1 h
    simp only [Memory.write]
    split
    · next hlt =>
      refine List.pairwise_cons.2 ⟨fun b hb => ?_, h⟩
      rcases List.mem_cons.1 hb with rfl | hb
      · exact hlt
      · exact Nat.lt_trans hlt (hm.1 b hb)
    · split
      · next heq => subst heq; exact List.pairwise_cons.2 hm
      · next h1 h2 =>
        refine List.pairwise_cons.2 ⟨fun b hb => ?_, ih hm.2⟩
        rcases Memory.mem_write hb with hb | hb
        · exact hm.1 b hb
        · simp only [hb]; omega

/-- Consecutive units: index `j` holds the unit written there, or what it held. -/
theorem Memory.read_writeUnits (m : Memory) (i j : Nat) (us : List Byte) :
    (m.writeUnits i us).read j = if i ≤ j ∧ j < i + us.length then us[j - i]? else m.read j := by
  induction us generalizing m i with
  | nil =>
    simp only [Memory.writeUnits, List.length_nil, Nat.add_zero]
    rw [if_neg (by omega)]
  | cons u us ih =>
    rw [Memory.writeUnits, ih, Memory.read_write]
    simp only [List.length_cons]
    by_cases h : i + 1 ≤ j ∧ j < i + 1 + us.length
    · rw [if_pos h, if_pos (by omega), show j - i = (j - (i + 1)) + 1 by omega, List.getElem?_cons_succ]
    · rw [if_neg h]
      by_cases hj : j = i
      · subst hj; simp
      · rw [if_neg hj, if_neg (by omega)]

/-- Consecutive units keep the canonical form. -/
theorem Memory.writeUnits_wf {m : Memory} (i : Nat) (us : List Byte) (h : m.wf) : (m.writeUnits i us).wf := by
  induction us generalizing m i with
  | nil => exact h
  | cons u us ih => exact ih (i + 1) (Memory.write_wf i u h)

/-- The indices listed after a write of consecutive units. -/
theorem Memory.mem_writeUnits {m : Memory} {i : Nat} {us : List Byte} {c : Host.Cell}
    (h : c ∈ m.writeUnits i us) : c ∈ m ∨ c.1 < i + us.length := by
  induction us generalizing m i with
  | nil => exact .inl h
  | cons u us ih =>
    rcases ih (m := m.write i u) (i := i + 1) h with h | h
    · rcases Memory.mem_write h with h | h
      · exact .inl h
      · right; simp only [h, List.length_cons]; omega
    · right; simp only [List.length_cons]; omega

/-- Below `n` every unit reads as before, and from `n` up none is listed. -/
@[simp] theorem Memory.read_below (m : Memory) (n i : Nat) : (m.below n).read i = if i < n then m.read i else none := by
  induction m with
  | nil => simp [Memory.below, Memory.read]
  | cons c m ih =>
    obtain ⟨a, v⟩ := c
    by_cases ha : a < n
    · rw [Memory.below, List.filter_cons_of_pos (by simpa using ha)]
      by_cases hi : a = i
      · subst hi; simp [Memory.read, ha]
      · simpa [Memory.read, hi, Memory.below] using ih
    · rw [Memory.below, List.filter_cons_of_neg (by simpa using ha), ← Memory.below, ih]
      split
      · next hi => rw [Memory.read, if_neg (by omega)]
      · rfl

/-- A listed index is one of the buffer's. -/
theorem Memory.lt_of_read {m : Memory} {cap i : Nat} {v : Byte} (h : ∀ c ∈ m, c.1 < cap) (hr : m.read i = some v) :
    i < cap := by
  induction m with
  | nil => simp [Memory.read] at hr
  | cons c m ih =>
    obtain ⟨a, w⟩ := c
    simp only [Memory.read] at hr
    split at hr
    · next heq => subst heq; exact h (a, w) (by simp)
    · exact ih (fun c hc => h c (by simp [hc])) hr

end Sys2Proof.Machine
end

