-- ==== Sys2Proof/Laws/Units.lean ====
section
/-! SUPPORT. What a unit can do, said once: the fetched groups as groups of the input (R103, R134 to R136), the
sequencing (R102, R132), the group steps, and a unit run to the end of its operation (R225). -/

namespace Sys2Proof.Machine

@[simp] theorem input_length (s : State) : s.input.length = s.lenIn := by simp [State.input]

theorem input_getElem? (s : State) (i : Nat) :
    s.input[i]? = if i < s.lenIn then some (s.inUnit i) else none := by
  simp only [State.input, List.getElem?_map]
  split
  · next h => simp [h]
  · next h => simp [h]

theorem padByteAt_input (s : State) (i : Nat) : padByteAt s.input i = encByte s i := by
  simp only [padByteAt, encByte, List.getD_eq_getElem?_getD, input_getElem?]
  split <;> simp

/-- ENC.FETCH reads group `GRP` of the padded input (R103). -/
theorem encFetch_eq (s : State) : encFetch s = byteGroupAt s.input s.grp := by
  simp [encFetch, byteGroupAt, padByteAt_input, inIndex, inSize]

theorem padDigitAt_input (s : State) (i : Nat) : padDigitAt s.input i = decDigit (decChar s i) := by
  simp only [padDigitAt, decChar, input_getElem?]
  split <;> split <;> simp_all [decDigit]

/-- DEC.FETCH, LOOKUP's digits and PADFILL give digit group `GRP` of the padded input (R133 to R136). -/
theorem decFetch_map (s : State) : (decFetch s).map decDigit = digitGroupAt s.input s.grp := by
  simp [decFetch, digitGroupAt, padDigitAt_input, inIndex, inSize, Five.map]

/-- No present character is invalid, or the first one that is has this index (R135). -/
theorem firstInvalid_cases (i : Nat) (cs : List (Option Byte)) :
    (firstInvalid i cs = none ∧ ∀ (k : Nat) (c : Byte), cs[k]? = some (some c) → charValid c = true) ∨
    ∃ (k : Nat) (c : Byte), firstInvalid i cs = some (i + k) ∧ cs[k]? = some (some c) ∧ charValid c = false ∧
      ∀ j < k, ∀ d : Byte, cs[j]? = some (some d) → charValid d = true := by
  induction cs generalizing i with
  | nil => left; simp [firstInvalid]
  | cons o cs ih =>
    have tail : firstInvalid i (o :: cs) = firstInvalid (i + 1) cs → (∀ c, o = some c → charValid c = true) →
        (firstInvalid i (o :: cs) = none ∧ ∀ (k : Nat) (c : Byte), (o :: cs)[k]? = some (some c) → charValid c = true) ∨
        ∃ (k : Nat) (c : Byte), firstInvalid i (o :: cs) = some (i + k) ∧ (o :: cs)[k]? = some (some c) ∧ charValid c = false ∧
          ∀ j < k, ∀ d : Byte, (o :: cs)[j]? = some (some d) → charValid d = true := by
      intro he ho
      rw [he]
      rcases ih (i + 1) with ⟨h1, h2⟩ | ⟨k, c, h1, h2, h3, h4⟩
      · refine .inl ⟨h1, fun k c hk => ?_⟩
        cases k with
        | zero => exact ho c (by simpa using hk)
        | succ k => exact h2 k c (by simpa using hk)
      · refine .inr ⟨k + 1, c, by rw [h1]; congr 1; omega, by simpa using h2, h3, fun j hj d hd => ?_⟩
        cases j with
        | zero => exact ho d (by simpa using hd)
        | succ j => exact h4 j (by omega) d (by simpa using hd)
    cases o with
    | none => exact tail rfl (by simp)
    | some c =>
      by_cases hc : charValid c = true
      · exact tail (by simp [firstInvalid, hc]) (by rintro _ ⟨⟩; exact hc)
      · simp only [Bool.not_eq_true] at hc
        exact .inr ⟨0, c, by simp [firstInvalid, hc], by simp, hc, by omega⟩

/-- Position `k` of the fetched group (R134). -/
theorem decFetch_getElem? (s : State) (k : Nat) (hk : k < 5) :
    (decFetch s).toList[k]? = some (decChar s (5 * s.grp + k)) := by
  match k, hk with
  | 0, _ => rfl
  | 1, _ => rfl
  | 2, _ => rfl
  | 3, _ => rfl
  | 4, _ => rfl

/-- The group steps as one: the group's units are those of the operation's function (R101, R131). -/
theorem encGroupStep_of_inRange {s : State} (h : groupInRange .encode s = true) :
    encGroupStep s = .next (storeGroup .encode (encAssemble (byteGroupAt s.input s.grp))
      (groupOutput .encode s.input s.grp) s) := by
  simp only [encGroupStep, h, if_true, encSubst_encRadix_encAssemble, encFetch_eq, groupOutput]

/-- DECODE's group step stores the group, all of whose characters are valid, or raises `InvalidCharacter` at the
lowest invalid index of the group (R135 to R141). -/
theorem decGroupStep_of_inRange {s : State} (h : groupInRange .decode s = true) :
    (decGroupStep s = .next (storeGroup .decode (decAccum (digitGroupAt s.input s.grp))
        (groupOutput .decode s.input s.grp) s) ∧
      ∀ k < 5, 5 * s.grp + k < s.lenIn → charValid (s.inUnit (5 * s.grp + k)) = true) ∨
    ∃ k < 5, decGroupStep s = .next (raiseError .invalidCharacter (5 * s.grp + k) s) ∧
      5 * s.grp + k < s.lenIn ∧ charValid (s.inUnit (5 * s.grp + k)) = false ∧
      ∀ j < k, charValid (s.inUnit (5 * s.grp + j)) = true := by
  rcases firstInvalid_cases (inIndex .decode s.grp 0) (decFetch s).toList with ⟨h1, h2⟩ | ⟨k, c, h1, h2, h3, h4⟩
  · left
    refine ⟨?_, fun k hk hlt => ?_⟩
    · simp only [decGroupStep, h, if_true, h1, decFetch_map, decSplit_decAccum, groupOutput]
    · refine h2 k _ ?_
      rw [decFetch_getElem? s k hk, decChar, if_pos hlt]
  · right
    have hk : k < 5 := by
      by_contra hk
      rw [List.getElem?_eq_none (by simpa using hk)] at h2
      cases h2
    rw [decFetch_getElem? s k hk, decChar] at h2
    split at h2
    · next hlt =>
      have hc : s.inUnit (5 * s.grp + k) = c := by simpa using h2
      refine ⟨k, hk, by simp only [decGroupStep, h, if_true, h1]; rfl, hlt, hc ▸ h3,
        fun j hj => h4 j hj _ ?_⟩
      rw [decFetch_getElem? s j (by omega), decChar, if_pos (by omega)]
    · simp at h2

/-- The three things sequencing can do (R102, R132). -/
theorem stepSequence_cases (i : Instr) (g : State → Answer) (s : State) :
    (s.grp < s.ngrp ∧ stepSequence i g s = g s) ∨
    (s.grp = s.ngrp ∧ stepSequence i g s = .next (finishOperation i s)) ∨
    (s.ngrp < s.grp ∧ stepSequence i g s = .fault .noCoreStep) := by
  rcases Nat.lt_trichotomy s.grp s.ngrp with h | h | h
  · exact .inl ⟨h, by simp [stepSequence, h]⟩
  · exact .inr (.inl ⟨h, by simp [stepSequence, h]⟩)
  · exact .inr (.inr ⟨h, by simp [stepSequence, show ¬ s.grp < s.ngrp by omega, show s.grp ≠ s.ngrp by omega]⟩)

/-- CORE's step is its unit's (R225). -/
theorem coreStep_eq (s : State) : coreStep s = match s.instr with
    | .encode => encStep s
    | .decode => decStep s := rfl

theorem runUnit_of_not_busy (u : State → Answer) (n : Nat) {s : State} (h : s.status ≠ .busy) :
    runUnit u n s = .next s := by
  cases n <;> simp [runUnit, h]

theorem runUnit_busy (u : State → Answer) (n : Nat) {s t : State} (h : s.status = .busy) (hu : u s = .next t) :
    runUnit u (n + 1) s = runUnit u n t := by
  simp [runUnit, h, hu]

end Sys2Proof.Machine
end

