-- ==== Sys2Proof/Laws/Invariant.lean ====
section
/-! SUPPORT. The invariant under each piece of a step: START (R224), the group steps (R102, R132), the error entry
(R195) and FINISH (R109, R142); what CORE never touches; and the result an operation ends in (R110, R145). -/

namespace Sys2Proof.Machine

/-- What a group step leaves in `ACC` (R104, R137). -/
def groupAcc : Instr → List Byte → Nat → Acc
  | .encode, bs, g => encAssemble (byteGroupAt bs g)
  | .decode, cs, g => decAccum (digitGroupAt cs g)

/-- The unit an operation runs on (R62). -/
def unitOf : Instr → State → Answer
  | .encode => encStep
  | .decode => decStep

theorem coreStep_unit (s : State) : coreStep s = unitOf s.instr s := by
  rw [coreStep_eq]; cases s.instr <;> rfl

theorem exec_unit (i : Instr) (s : State) : exec i s = runOperation i (unitOf i) s := by cases i <;> rfl

/-- No group step of an operation in progress has an index outside its buffer (R57). -/
theorem groupInRange_of_inv {s : State} (h : s.Inv) (hb : s.status = .busy) (hg : s.grp < s.ngrp) :
    groupInRange s.instr s = true :=
  groupInRange_of_fits (h.busy_fits hb) (h.busy_ngrp hb ▸ hg)

/-- All that CORE's step can do from a state that meets the invariant: a group stored, `InvalidCharacter` raised at the
lowest invalid index, or FINISH (R102, R132, R135). -/
theorem coreStep_cases {s : State} (h : s.Inv) (hb : s.status = .busy) :
    (s.grp < s.ngrp ∧ unitOf s.instr s = .next (storeGroup s.instr (groupAcc s.instr s.input s.grp)
        (groupOutput s.instr s.input s.grp) s) ∧
      (s.instr = .decode → ∀ k < 5, 5 * s.grp + k < s.lenIn → charValid (s.inUnit (5 * s.grp + k)) = true)) ∨
    (s.grp < s.ngrp ∧ s.instr = .decode ∧ ∃ k < 5,
      unitOf s.instr s = .next (raiseError .invalidCharacter (5 * s.grp + k) s) ∧
      5 * s.grp + k < s.lenIn ∧ charValid (s.inUnit (5 * s.grp + k)) = false ∧
      ∀ j < k, charValid (s.inUnit (5 * s.grp + j)) = true) ∨
    (s.grp = s.ngrp ∧ unitOf s.instr s = .next (finishOperation s.instr s)) := by
  have hg := h.busy_grp hb
  have hr := fun hlt => groupInRange_of_inv h hb hlt
  generalize s.instr = i at *
  cases i with
  | encode =>
    rcases stepSequence_cases .encode encGroupStep s with ⟨h1, h2⟩ | ⟨h1, h2⟩ | ⟨h1, h2⟩
    · left
      exact ⟨h1, by rw [unitOf, encStep, h2, encGroupStep_of_inRange (hr h1)]; rfl, by simp⟩
    · right; right; exact ⟨h1, h2⟩
    · omega
  | decode =>
    rcases stepSequence_cases .decode decGroupStep s with ⟨h1, h2⟩ | ⟨h1, h2⟩ | ⟨h1, h2⟩
    · rcases decGroupStep_of_inRange (hr h1) with ⟨h3, h4⟩ | ⟨k, hk, h3, h4, h5, h6⟩
      · left; exact ⟨h1, by rw [unitOf, decStep, h2, h3]; rfl, fun _ => h4⟩
      · right; left
        exact ⟨h1, rfl, k, hk, by rw [unitOf, decStep, h2, h3], h4, h5, h6⟩
    · right; right; exact ⟨h1, h2⟩
    · omega

theorem inUnit_congr {s t : State} (h1 : t.inBuf = s.inBuf) (h2 : t.epoch = s.epoch) (k : Nat) :
    t.inUnit k = s.inUnit k := by
  simp [State.inUnit, h1, h2]

theorem input_congr {s t : State} (h1 : t.inBuf = s.inBuf) (h2 : t.epoch = s.epoch) (h3 : t.lenIn = s.lenIn) :
    t.input = s.input := by
  have : t.inUnit = s.inUnit := funext fun k => inUnit_congr h1 h2 k
  simp [State.input, this, h3]

/-- A stored group keeps the invariant (R107, R140). -/
theorem storeGroup_inv {s : State} (h : s.Inv) (hb : s.status = .busy) (hg : s.grp < s.ngrp) (a : Acc)
    (hv : s.instr = .decode → ∀ k < 5, 5 * s.grp + k < s.lenIn → charValid (s.inUnit (5 * s.grp + k)) = true) :
    (storeGroup s.instr a (groupOutput s.instr s.input s.grp) s).Inv := by
  have htr : trunc s.params (s.grp + 1) = s.grp + 1 := trunc_of_lt (by have := h.ngrp_fits; omega)
  have hin : (storeGroup s.instr a (groupOutput s.instr s.input s.grp) s).input = s.input := input_congr rfl rfl rfl
  have hi : (storeGroup s.instr a (groupOutput s.instr s.input s.grp) s).instr = s.instr := rfl
  have hf := (tooLarge_eq_false.1 (h.busy_fits hb)).2
  have hn := h.busy_ngrp hb
  have hle : outSize s.instr * s.grp + outSize s.instr ≤ outSize s.instr * s.ngrp := by
    rw [← Nat.mul_succ]; exact Nat.mul_le_mul_left _ hg
  rw [hn] at hle
  refine ⟨h.params_valid, h.lenIn_fits, h.errIdx_fits, h.lenOut_fits, trunc_lt _ _, h.ngrp_fits, h.in_wf, h.in_extent,
    Memory.writeUnits_wf _ _ h.out_wf, ?_, h.err_iff, h.errIdx_zero, h.errIdx_in, h.lenOut_zero, ?_, h.busy_fits,
    h.busy_ngrp, h.busy_pad, ?_, ?_, ?_⟩
  · intro c hc
    rcases Memory.mem_writeUnits hc with hc | hc
    · exact h.out_extent c hc
    · rw [groupOutput_length, outIndex] at hc; simp only [storeGroup_params]; omega
  · intro hd; simp [hb] at hd
  · intro _; simp only [storeGroup_grp, storeGroup_ngrp, htr]; omega
  · intro _ k hk
    rw [hin, hi] at *
    simp only [storeGroup_grp, htr, Nat.mul_succ] at hk
    simp only [storeGroup_outBuf, Memory.read_writeUnits, groupOutput_length, outIndex, Nat.add_zero]
    split
    · next hc =>
      obtain ⟨j, rfl⟩ : ∃ j, k = outSize s.instr * s.grp + j := ⟨k - outSize s.instr * s.grp, by omega⟩
      rw [fullOutput_getElem? _ _ (by simpa [hn] using hg) (by omega)]
      congr 1; omega
    · next hc => exact h.busy_written hb k (by omega)
  · intro _ hd k hk
    have hd' : s.instr = .decode := hd
    simp only [storeGroup_grp, htr, storeGroup_lenIn] at hk
    rw [inUnit_congr (s := s) (t := storeGroup s.instr a (groupOutput s.instr s.input s.grp) s) rfl rfl]
    by_cases hk5 : k < 5 * s.grp
    · exact h.busy_valid hb hd' k (by omega)
    · have := hv hd' (k - 5 * s.grp) (by omega) (by omega)
      rwa [show 5 * s.grp + (k - 5 * s.grp) = k by omega] at this

/-- `InvalidCharacter` at a present index keeps the invariant (R191, R195). -/
theorem raiseInvalid_inv {s : State} (h : s.Inv) (i : Nat) (hi : i < s.lenIn) (hb : s.status = .busy) :
    (raiseError .invalidCharacter i s).Inv := by
  have hf := (tooLarge_eq_false.1 (h.busy_fits hb)).1
  have htr : trunc s.params i = i := trunc_of_lt (by have := h.lenIn_fits; omega)
  refine ⟨h.params_valid, h.lenIn_fits, trunc_lt _ _, Nat.two_pow_pos _, h.grp_fits, h.ngrp_fits, h.in_wf,
    h.in_extent, h.out_wf, h.out_extent, by simp, by simp, ?_, by simp, by simp, by simp, by simp, by simp, by simp, by simp,
    by simp⟩
  intro _; simp only [raiseError_errIdx, raiseError_params, htr]; omega

/-- `InputTooLarge` at START keeps the invariant (R192, R224). -/
theorem raiseTooLarge_inv {s : State} (h : s.Inv) : (raiseError .inputTooLarge 0 (freeInternals s)).Inv := by
  refine ⟨h.params_valid, h.lenIn_fits, trunc_lt _ _, Nat.two_pow_pos _, trunc_lt _ _, trunc_lt _ _, h.in_wf,
    h.in_extent, h.out_wf, h.out_extent, by simp, by simp [trunc], by simp, by simp, by simp,
    by simp, by simp, by simp, by simp, by simp, by simp⟩

/-- An operation that fits begins in the invariant (R224). -/
theorem beginOperation_inv {s : State} (h : s.Inv) (hf : tooLarge s.params s.instr s.lenIn = false) :
    (beginOperation s.instr s).Inv := by
  have htr : trunc s.params (groupsOf s.instr s.lenIn) = groupsOf s.instr s.lenIn :=
    trunc_of_lt (Nat.lt_of_le_of_lt (groupsOf_le _ _) h.lenIn_fits)
  refine ⟨h.params_valid, h.lenIn_fits, Nat.two_pow_pos _, Nat.two_pow_pos _, Nat.two_pow_pos _, trunc_lt _ _,
    h.in_wf, h.in_extent, h.out_wf, h.out_extent, by simp, by simp, by simp, by simp, by simp, fun _ => hf, fun _ => htr,
    fun _ => padOf_toNat _ _, by simp, by simp, by simp⟩

theorem startOperation_inv {s : State} (h : s.Inv) : (startOperation s.instr s).Inv := by
  cases hf : tooLarge s.params s.instr s.lenIn with
  | false => rw [startOperation_of_fits hf]; exact beginOperation_inv h hf
  | true => rw [startOperation_of_tooLarge hf]; exact raiseTooLarge_inv h

/-- `LEN_OUT` takes the whole length of the result (R109, R142, R179). -/
theorem finishOperation_lenOut_eq {s : State} (h : s.Inv) (hb : s.status = .busy) :
    trunc s.params (outSize s.instr * s.ngrp - s.pad.toNat) = resultLen s.instr s.lenIn := by
  have hf := (tooLarge_eq_false.1 (h.busy_fits hb)).2
  have hv := h.params_valid.2.2
  have := Nat.two_pow_pos s.params.lenBits
  rw [trunc_of_lt, h.busy_ngrp hb, h.busy_pad hb]; · rfl
  rw [h.busy_ngrp hb]; omega

/-- FINISH keeps the invariant: every unit of the result is written (R57). -/
theorem finishOperation_inv {s : State} (h : s.Inv) (hb : s.status = .busy) (hg : s.grp = s.ngrp) :
    (finishOperation s.instr s).Inv := by
  have hl := finishOperation_lenOut_eq h hb
  refine ⟨h.params_valid, h.lenIn_fits, Nat.two_pow_pos _, trunc_lt _ _, h.grp_fits, h.ngrp_fits, h.in_wf,
    h.in_extent, h.out_wf, h.out_extent, by simp, by simp, by simp, by simp, ?_, by simp, by simp, by simp, by simp,
    by simp, by simp⟩
  intro _ k hk
  simp only [finishOperation_lenOut, hl] at hk
  have := h.busy_written hb k (by rw [hg, h.busy_ngrp hb]; simp only [resultLen] at hk; omega)
  simp only [finishOperation_outBuf, this]
  rw [List.getElem?_eq_getElem (by simp only [resultLen] at hk; simp only [fullOutput_length, input_length]; omega)]
  rfl

theorem coreStep_inv {s t : State} (h : s.Inv) (hb : s.status = .busy) (hs : coreStep s = .next t) : t.Inv := by
  rw [coreStep_unit] at hs
  rcases coreStep_cases h hb with ⟨h1, h2, h3⟩ | ⟨h1, hd, k, hk, h2, h3, h4, h5⟩ | ⟨h1, h2⟩
  · rw [h2] at hs; cases hs; exact storeGroup_inv h hb h1 _ h3
  · rw [h2] at hs; cases hs; exact raiseInvalid_inv h _ h3 hb
  · rw [h2] at hs; cases hs; exact finishOperation_inv h hb h1

theorem coreStep_next {s : State} (h : s.Inv) (hb : s.status = .busy) : ∃ t, coreStep s = .next t := by
  rw [coreStep_unit]
  rcases coreStep_cases h hb with ⟨h1, h2, h3⟩ | ⟨h1, hd, k, hk, h2, h3, h4, h5⟩ | ⟨h1, h2⟩ <;> exact ⟨_, h2⟩

/-- What no step of CORE touches (R41, R195): the operands and the environment. -/
structure SameOperands (s t : State) : Prop where
  params : t.params = s.params
  op : t.op = s.op
  lenIn : t.lenIn = s.lenIn
  inBuf : t.inBuf = s.inBuf
  queue : t.queue = s.queue
  reply : t.reply = s.reply
  wrong : t.wrong = s.wrong
  epoch : t.epoch = s.epoch

theorem SameOperands.trans {s t u : State} (a : SameOperands s t) (b : SameOperands t u) : SameOperands s u := by
  exact ⟨b.params.trans a.params, b.op.trans a.op, b.lenIn.trans a.lenIn, b.inBuf.trans a.inBuf, b.queue.trans a.queue,
    b.reply.trans a.reply, b.wrong.trans a.wrong, b.epoch.trans a.epoch⟩

theorem coreStep_same {s t : State} (h : s.Inv) (hb : s.status = .busy) (hs : coreStep s = .next t) :
    SameOperands s t := by
  rw [coreStep_unit] at hs
  rcases coreStep_cases h hb with ⟨h1, h2, h3⟩ | ⟨h1, hd, k, hk, h2, h3, h4, h5⟩ | ⟨h1, h2⟩
  · rw [h2] at hs; cases hs; exact ⟨rfl, rfl, rfl, rfl, rfl, rfl, rfl, rfl⟩
  · rw [h2] at hs; cases hs; exact ⟨rfl, rfl, rfl, rfl, rfl, rfl, rfl, rfl⟩
  · rw [h2] at hs; cases hs; exact ⟨rfl, rfl, rfl, rfl, rfl, rfl, rfl, rfl⟩

/-- A step of CORE after which the operation goes on leaves `OUT` alone but for its group's units (R107, R140). -/
theorem coreStep_out {s t : State} (h : s.Inv) (hb : s.status = .busy) (hs : coreStep s = .next t)
    (ht : t.status = .busy) (a : Nat)
    (ha : a < outSize s.instr * s.grp ∨ outSize s.instr * s.grp + outSize s.instr ≤ a) :
    t.outBuf.read a = s.outBuf.read a := by
  rw [coreStep_unit] at hs
  rcases coreStep_cases h hb with ⟨h1, h2, h3⟩ | ⟨h1, hd, k, hk, h2, h3, h4, h5⟩ | ⟨h1, h2⟩ <;> rw [h2] at hs <;> cases hs
  · simp only [storeGroup_outBuf, Memory.read_writeUnits, groupOutput_length, outIndex, Nat.add_zero]
    rw [if_neg (by omega)]
  · simp at ht
  · simp at ht

/-- The result in `OUT`, from its units. -/
theorem output_eq {s : State} (us : List Byte) (hl : us.length = s.lenOut)
    (h : ∀ k < s.lenOut, s.outBuf.read k = us[k]?) : s.output = us := by
  apply List.ext_getElem?
  intro k
  simp only [State.output, List.getElem?_map]
  by_cases hk : k < s.lenOut
  · rw [List.getElem?_range hk]
    simp only [Option.map_some, State.outUnit, h k hk]
    rw [List.getElem?_eq_getElem (by omega)]; rfl
  · rw [List.getElem?_eq_none (by simpa using hk), List.getElem?_eq_none (by omega)]; rfl

theorem findIdx?_input_none {s : State} (h : ∀ k < s.lenIn, charValid (s.inUnit k) = true) :
    s.input.findIdx? (fun c => !charValid c) = none := by
  rw [List.findIdx?_eq_none_iff]
  intro c hc
  obtain ⟨k, hk⟩ := List.mem_iff_getElem?.1 hc
  rw [input_getElem?] at hk
  split at hk
  · next hl => cases hk; simp [h k hl]
  · cases hk

/-- FINISH ends in the function's result (R110, R145). -/
theorem finishOperation_result {s : State} (h : s.Inv) (hb : s.status = .busy) (hg : s.grp = s.ngrp) :
    (finishOperation s.instr s).result = some (opResult s.params s.instr s.input) := by
  have hl := finishOperation_lenOut_eq h hb
  have hfit := h.busy_fits hb
  have hout : (finishOperation s.instr s).output = (fullOutput s.instr s.input).take (resultLen s.instr s.lenIn) := by
    apply output_eq
    · simp only [finishOperation_lenOut, hl, List.length_take, fullOutput_length, input_length, resultLen]; omega
    · intro k hk
      simp only [finishOperation_lenOut, hl] at hk
      rw [List.getElem?_take, if_pos hk]
      exact h.busy_written hb k (by rw [hg, h.busy_ngrp hb]; simp only [resultLen] at hk; omega)
  simp only [State.result, finishOperation_status, hout]
  have hv := h.busy_valid hb
  generalize hi : s.instr = i at *
  cases i with
  | encode => simp [opResult, encodeResult, hfit, encodeBytes, fullOutput]
  | decode =>
    have : s.input.findIdx? (fun c => !charValid c) = none := by
      apply findIdx?_input_none
      intro k hk
      apply hv rfl k
      have := h.busy_ngrp hb
      rw [hi] at this
      rw [hg, this]; simp only [groupsOf, inSize, ceilQuot]; omega
    simp only [opResult, decodeResult, input_length, hfit, this]; simp [decodeChars, fullOutput]

/-- `InvalidCharacter` is the function's result: the index is the lowest invalid one of the whole input (R182). -/
theorem raiseInvalid_result {s : State} (h : s.Inv) (hb : s.status = .busy) (hd : s.instr = .decode) (k : Nat)
    (h3 : 5 * s.grp + k < s.lenIn) (h4 : charValid (s.inUnit (5 * s.grp + k)) = false)
    (h5 : ∀ j < k, charValid (s.inUnit (5 * s.grp + j)) = true) :
    (raiseError .invalidCharacter (5 * s.grp + k) s).result = some (opResult s.params s.instr s.input) := by
  have htr : trunc s.params (5 * s.grp + k) = 5 * s.grp + k := trunc_of_lt (by have := h.lenIn_fits; omega)
  have hfit := h.busy_fits hb
  rw [hd] at hfit ⊢
  have hf : s.input.findIdx? (fun c => !charValid c) = some (5 * s.grp + k) := by
    refine findIdx?_invalid (by rw [input_getElem?, if_pos h3]) h4 ?_
    intro j hj d hjd
    rw [input_getElem?, if_pos (by omega)] at hjd
    cases hjd
    by_cases hk5 : j < 5 * s.grp
    · exact h.busy_valid hb hd j (by omega)
    · have := h5 (j - 5 * s.grp) (by omega)
      rwa [show 5 * s.grp + (j - 5 * s.grp) = j by omega] at this
  simp [State.result, htr, opResult, decodeResult, hfit, hf]

/-- CORE's step answers, and either ends in the function's result or completes one more group (R225). -/
theorem coreStep_progress {s : State} (h : s.Inv) (hb : s.status = .busy) :
    ∃ t, coreStep s = .next t ∧ t.Inv ∧ SameOperands s t ∧
      ((t.status ≠ .busy ∧ (t.status = .done ∨ t.status = .error) ∧
          t.result = some (opResult s.params s.instr s.input)) ∨
       (t.status = .busy ∧ t.ngrp = s.ngrp ∧ t.grp = s.grp + 1 ∧ s.grp < s.ngrp)) := by
  obtain ⟨t, ht⟩ := coreStep_next h hb
  refine ⟨t, ht, coreStep_inv h hb ht, coreStep_same h hb ht, ?_⟩
  rw [coreStep_unit] at ht
  rcases coreStep_cases h hb with ⟨h1, h2, h3⟩ | ⟨h1, hd, k, hk, h2, h3, h4, h5⟩ | ⟨h1, h2⟩
  · rw [h2] at ht; cases ht
    exact .inr ⟨hb, rfl, trunc_of_lt (by have := h.ngrp_fits; omega), h1⟩
  · rw [h2] at ht; cases ht
    exact .inl ⟨by simp, by simp, raiseInvalid_result h hb hd k h3 h4 h5⟩
  · rw [h2] at ht; cases ht
    exact .inl ⟨by simp, by simp, finishOperation_result h hb h1⟩

theorem SameOperands.opResult_eq {s t : State} (a : SameOperands s t) :
    opResult t.params t.instr t.input = opResult s.params s.instr s.input := by
  rw [a.params, State.instr, a.op, input_congr a.inBuf a.epoch a.lenIn]

/-- A unit run for a step per group left and one more ends in the function's result (R225, R231). -/
theorem runUnit_core (n : Nat) {s : State} (h : s.Inv) (hb : s.status = .busy) (hn : s.ngrp - s.grp + 1 ≤ n) :
    ∃ t, runUnit (unitOf s.instr) n s = .next t ∧ t.Inv ∧ SameOperands s t ∧ (t.status = .done ∨ t.status = .error) ∧
      t.result = some (opResult s.params s.instr s.input) := by
  induction n generalizing s with
  | zero => omega
  | succ n ih =>
    obtain ⟨t, ht, hI, hS, hc⟩ := coreStep_progress h hb
    rw [coreStep_unit] at ht
    rw [runUnit_busy _ _ hb ht]
    rcases hc with ⟨h1, h2, h3⟩ | ⟨h1, h2, h3, h4⟩
    · exact ⟨t, runUnit_of_not_busy _ _ h1, hI, hS, h2, h3⟩
    · obtain ⟨u, hu, hI', hS', hd', hr'⟩ := ih hI h1 (by omega)
      have hi : t.instr = s.instr := by simp [State.instr, hS.op]
      rw [hi] at hu
      exact ⟨u, hu, hI', hS.trans hS', hd', by rw [hr', SameOperands.opResult_eq hS]⟩

/-- A write of `OP` outside BUSY keeps the invariant (R23). -/
theorem setOp_inv {s : State} (h : s.Inv) (hb : s.status ≠ .busy) (o : BitVec 1) :
    ({ s with op := o } : State).Inv := by
  refine ⟨h.params_valid, h.lenIn_fits, h.errIdx_fits, h.lenOut_fits, h.grp_fits, h.ngrp_fits, h.in_wf, h.in_extent,
    h.out_wf, h.out_extent, h.err_iff, h.errIdx_zero, h.errIdx_in, h.lenOut_zero, h.done_written,
    ?_, ?_, ?_, ?_, ?_, ?_⟩ <;> intro hb' <;> exact absurd hb' hb

@[simp] theorem decodeOp_opOf (i : Instr) : decodeOp (opOf i) = i := by cases i <;> rfl

/-- The result reads `STATE`, `ERR`, `ERR_IDX`, `LEN_OUT` and `OUT[0 .. LEN_OUT)`, and nothing else (R232). -/
theorem result_congr {s t : State} (h1 : t.status = s.status) (h2 : t.err = s.err) (h3 : t.errIdx = s.errIdx)
    (h4 : t.lenOut = s.lenOut) (h5 : ∀ k < s.lenOut, t.outUnit k = s.outUnit k) : t.result = s.result := by
  have : t.output = s.output := by
    simp only [State.output, h4]; exact List.map_congr_left fun k hk => h5 k (List.mem_range.1 hk)
  simp only [State.result, h1, h2, h3, this]

/-- What is blanked is no part of the result (R232). -/
theorem result_specified {s : State} (h : s.Inv) : s.specified.result = s.result := by
  cases hs : s.status with
  | idle => simp [State.result, hs]
  | busy => simp [State.result, hs]
  | error => simp [State.result, hs]
  | done =>
    refine result_congr rfl rfl rfl rfl fun k hk => ?_
    obtain ⟨u, hu⟩ := Option.isSome_iff_exists.1 (h.done_written hs k hk)
    simp [State.outUnit, hk, hu]

/-- What a DONE result says of the registers (R26 to R29). -/
theorem done_of_result {t : State} {us : List Byte} (h : t.result = some (.done us)) (hI : t.Inv) :
    t.status = .done ∧ t.err = .none ∧ t.errIdx = 0 ∧ t.lenOut = us.length ∧ t.output = us := by
  have hd : t.status = .done ∧ t.output = us := by
    unfold State.result at h; cases hs : t.status <;> rw [hs] at h <;> simp at h; exact ⟨rfl, h⟩
  have he : t.err = .none := by
    by_contra hn; have := hI.err_iff.1 hn; rw [hd.1] at this; cases this
  refine ⟨hd.1, he, hI.errIdx_zero (by rw [he]; decide), ?_, hd.2⟩
  rw [← hd.2]; simp [State.output]

/-- What an ERROR result says of the registers (R26 to R29). -/
theorem err_of_result {t : State} {e : ErrKind} {k : Nat} (h : t.result = some (.error e k)) (hI : t.Inv) :
    t.status = .error ∧ t.err = e ∧ t.errIdx = k ∧ t.lenOut = 0 := by
  have hd : t.status = .error ∧ t.err = e ∧ t.errIdx = k := by
    unfold State.result at h; cases hs : t.status <;> rw [hs] at h <;> simp at h; exact ⟨rfl, h⟩
  exact ⟨hd.1, hd.2.1, hd.2.2, hI.lenOut_zero (by rw [hd.1]; decide)⟩

/-- A unit of the result (R35). -/
theorem out_get {t : State} {us : List Byte} (h : t.output = us) (k : Nat) (hk : k < t.lenOut) :
    some (t.outUnit k) = us[k]? := by
  rw [← h]; simp [State.output, hk]

end Sys2Proof.Machine
end

