-- ==== Sys2Proof/Laws/Host.lean ====
section
/-! SUPPORT. The host's moves: the invariant under each accepted write, a read and a reset (R36, R220), the step on a
move of the environment, and what a move can answer (R61, R227). -/

namespace Sys2Proof.Machine

/-- The environment's next move is made once it is taken from the queue (R61). -/
theorem step_withMove (s : State) (m : Move) : step (s.withMove m) = doMove m s := rfl

/-- With no move pending CORE has its turn (R225). -/
theorem step_of_empty {s : State} (h : s.queue = []) : step s = coreTurn s := by simp [step, h]

theorem step_of_cons {s : State} {m : Move} {rest : List Move} (h : s.queue = m :: rest) :
    step s = doMove m { s with queue := rest } := by simp [step, h]

/-- The environment's moves, what the host last read and its verdict are no part of the invariant. -/
theorem setHost_inv {s : State} (h : s.Inv) (q : List Move) (r : Option Nat) (w : Bool) :
    ({ s with queue := q, reply := r, wrong := w } : State).Inv := by
  refine ⟨h.params_valid, h.lenIn_fits, h.errIdx_fits, h.lenOut_fits, h.grp_fits, h.ngrp_fits, h.in_wf, h.in_extent,
    h.out_wf, h.out_extent, h.err_iff, h.errIdx_zero, h.errIdx_in, h.lenOut_zero, h.done_written, h.busy_fits,
    h.busy_ngrp, h.busy_pad, h.busy_grp, h.busy_written, h.busy_valid⟩

theorem setQueue_inv {s : State} (h : s.Inv) (q : List Move) (r : Option Nat) :
    ({ s with queue := q, reply := r } : State).Inv := setHost_inv h q r s.wrong

/-- Taking up a statement keeps the invariant (R94). -/
theorem takeUpStmt_inv {s : State} (h : s.Inv) (t : Stmt) : (takeUpStmt t s).Inv := setHost_inv h _ _ _

/-- `LEN_OUT` reads as it is while CORE is not BUSY (R227). -/
theorem readLenOut_eq {s : State} (hb : s.status ≠ .busy) : readLenOut s = s.lenOut := by
  simp [readLenOut, readValue, hb, regValue]

/-- In DONE a unit of the result reads as it is (R227). -/
theorem readValue_out {s : State} (hd : s.status = .done) {i : Nat} (hi : i < s.lenOut) :
    readValue s .outBuf i = (s.outUnit i).toNat := by
  simp [readValue, hd, hi]

/-- In DONE the host reads the result (R94, R227). -/
theorem readOutput_eq {s : State} (hd : s.status = .done) : readOutput s = s.output.map (·.toNat) := by
  rw [readOutput, readLenOut_eq (by rw [hd]; decide), State.output, List.map_map]
  exact List.map_congr_left fun i hi => readValue_out hd (List.mem_range.1 hi)

/-- In DONE the units the host reads are those of the result, and no others (R94). -/
theorem readsUnits_iff {s : State} (hd : s.status = .done) (us : List Byte) :
    readsUnits s us = true ↔ s.output = us := by
  rw [readsUnits, readLenOut_eq (by rw [hd]; decide), readOutput_eq hd, Bool.and_eq_true, beq_iff_eq, beq_iff_eq]
  refine ⟨fun h => (List.map_inj_right fun a b hab => BitVec.eq_of_toNat_eq hab).1 h.2, fun h => ?_⟩
  subst h; simp [State.output]

/-- A write of `LEN_IN` outside BUSY keeps the invariant (R24). -/
theorem writeLenIn_inv {s : State} (h : s.Inv) (hb : s.status ≠ .busy) (v : Nat) : (writeLenIn v s).Inv := by
  refine ⟨h.params_valid, trunc_lt _ _, h.errIdx_fits, h.lenOut_fits, h.grp_fits, h.ngrp_fits, h.in_wf, h.in_extent,
    h.out_wf, h.out_extent, h.err_iff, h.errIdx_zero, h.errIdx_in, h.lenOut_zero, h.done_written,
    ?_, ?_, ?_, ?_, ?_, ?_⟩ <;> intro hb' <;> exact absurd hb' hb

/-- A write of a unit of `IN` outside BUSY keeps the invariant (R34). -/
theorem writeIn_inv {s : State} (h : s.Inv) (hb : s.status ≠ .busy) {i : Nat} (hi : i < s.params.inCap) (v : Nat) :
    (writeIn i v s).Inv := by
  refine ⟨h.params_valid, h.lenIn_fits, h.errIdx_fits, h.lenOut_fits, h.grp_fits, h.ngrp_fits,
    Memory.write_wf _ _ h.in_wf, fun c hc => ?_,
    h.out_wf, h.out_extent, h.err_iff, h.errIdx_zero, h.errIdx_in, h.lenOut_zero, h.done_written,
    ?_, ?_, ?_, ?_, ?_, ?_⟩
  · rcases Memory.mem_write hc with hc | hc
    · exact h.in_extent c hc
    · exact hc ▸ hi
  all_goals intro hb'; exact absurd hb' hb

/-- A reset in any state that meets the invariant meets it (R42, R220). -/
theorem resetStep_inv {s : State} (h : s.Inv) : (resetStep s).Inv := by
  refine ⟨h.params_valid, Nat.two_pow_pos _, Nat.two_pow_pos _, Nat.two_pow_pos _, trunc_lt _ _, trunc_lt _ _,
    List.Pairwise.nil, ?_, List.Pairwise.nil, ?_, ?_, ?_, ?_, ?_, ?_, ?_, ?_, ?_, ?_, ?_, ?_⟩ <;>
    simp [resetStep, State.resetWith]

/-- A write the core accepts keeps the invariant (R36, R50). -/
theorem acceptWrite_inv {s : State} (h : s.Inv) (hb : s.status ≠ .busy) {sp : Space} {i : Nat}
    (hi : sp.has s.params i = true) (v : Nat) : (acceptWrite sp i v s).Inv := by
  unfold acceptWrite
  split
  · exact setOp_inv h hb _
  · exact writeLenIn_inv h hb v
  · exact startOperation_inv h
  · exact h
  · exact writeIn_inv h hb (by simpa [Space.has] using hi) v
  · exact h

/-- What a host write answers (R227). -/
theorem hostWrite_cases (sp : Space) (i v : Nat) (s : State) :
    (sp.has s.params i = false ∧ hostWrite sp i v s = .fault (.noSuchUnit sp i)) ∨
    (sp.has s.params i = true ∧ ignoresWrites sp i = true ∧ hostWrite sp i v s = .next s) ∨
    (sp.has s.params i = true ∧ ignoresWrites sp i = false ∧ s.status = .busy ∧
      hostWrite sp i v s = .refused (.hostWriteWhileBusy sp i)) ∨
    (sp.has s.params i = true ∧ ignoresWrites sp i = false ∧ s.status ≠ .busy ∧
      hostWrite sp i v s = .next (acceptWrite sp i v s)) := by
  cases h1 : sp.has s.params i <;> cases h2 : ignoresWrites sp i <;> by_cases h3 : s.status = .busy <;>
    simp [hostWrite, h1, h2, h3]

/-- CORE's step does not look at the environment's moves (R225). -/
theorem coreStep_setQueue {s t : State} (q : List Move) (h : coreStep s = .next t) :
    coreStep { s with queue := q } = .next { t with queue := q } := by
  unfold coreStep at h ⊢
  cases ho : decodeOp s.op with
  | encode =>
    simp only [ho, encStep, stepSequence] at h ⊢
    split at h
    · next hg =>
      rw [if_pos hg]
      unfold encGroupStep at h ⊢
      split at h
      · next hr => rw [if_pos (show groupInRange .encode { s with queue := q } = true from hr)]; cases h; rfl
      · cases h
    · next hg =>
      split at h
      · next he => rw [if_neg hg, if_pos he]; cases h; rfl
      · cases h
  | decode =>
    simp only [ho, decStep, stepSequence] at h ⊢
    split at h
    · next hg =>
      rw [if_pos hg]
      unfold decGroupStep at h ⊢
      split at h
      · next hr =>
        rw [if_pos (show groupInRange .decode { s with queue := q } = true from hr)]
        split at h
        · next k hk =>
          rw [show firstInvalid (inIndex .decode ({ s with queue := q } : State).grp 0)
            (decFetch ({ s with queue := q } : State)).toList = some k from hk]
          cases h; rfl
        · next hk =>
          rw [show firstInvalid (inIndex .decode ({ s with queue := q } : State).grp 0)
            (decFetch ({ s with queue := q } : State)).toList = none from hk]
          cases h; rfl
      · cases h
    · next hg =>
      split at h
      · next he => rw [if_neg hg, if_pos he]; cases h; rfl
      · cases h

/-- CORE's turn keeps the invariant (R204, R225). -/
theorem coreTurn_inv {s t : State} (h : s.Inv) (ht : coreTurn s = .next t) : t.Inv := by
  unfold coreTurn at ht
  split at ht
  · next hb => exact coreStep_inv h hb ht
  · cases ht; exact h

@[simp] theorem run_zero (s : State) : core.run 0 s = .next s := rfl
/-- A run whose first step answers goes on from there. -/
theorem run_next (n : Nat) {s t : State} (h : step s = .next t) : core.run (n + 1) s = core.run n t := by
  refine (Host.Core.run.eq_2 core s n).trans ?_
  rw [show core.step s = .next t from h]

/-- Runs in a row. -/
theorem run_add (m n : Nat) {s t : State} (h : core.run m s = .next t) : core.run (m + n) s = core.run n t := by
  induction m generalizing s with
  | zero => cases h; rw [Nat.zero_add]
  | succ m ih =>
    rw [show m + 1 + n = (m + n) + 1 by omega]
    have h' := (Host.Core.run.eq_2 core s m).symm.trans h
    cases hs : step s with
    | next u =>
      rw [run_next _ hs]
      rw [show core.step s = .next u from hs] at h'
      exact ih h'
    | fault f => rw [show core.step s = .fault f from hs] at h'; cases h'
    | refused f => rw [show core.step s = .refused f from hs] at h'; cases h'

end Sys2Proof.Machine
end

