-- ==== Sys2Proof/Laws/PerInstr.lean ====
section
/-! SUPPORT. Statements about every operation as syntax, one lemma per constructor. -/

/-- An operation is legal, its byte is its `OP` value with nothing above bit 0, and both decode to it (R90). -/
def Sys2Proof.Laws.Encoding.Statement (i : Sys2Proof.Instr) : Prop :=
  i.wf = true ∧ Sys2Proof.decodeOp (Sys2Proof.opOf i) = i ∧
    (∃ b : Sys2Proof.Byte, Sys2Proof.encodeInstr i = [b] ∧ b.toNat = (Sys2Proof.opOf i).toNat ∧
      Sys2Proof.decodeWord b = i)

theorem Sys2Proof.Laws.Encoding.encode : Sys2Proof.Laws.Encoding.Statement .encode :=
  ⟨rfl, rfl, 0x00#8, by decide⟩

theorem Sys2Proof.Laws.Encoding.decode : Sys2Proof.Laws.Encoding.Statement .decode :=
  ⟨rfl, rfl, 0x01#8, by decide⟩
end

