-- ==== Sys2Proof/Tests/Slice0.lean ====
section
/-! SUPPORT. The model's own tests: ill-formed terms the checks refuse, the two operation words written out from R90,
steps with the results of spec/95_test_vectors.md, and for every statement with hypotheses a concrete state and
operands that meet them all. -/

namespace Sys2Proof.Tests

open Sys2Proof Sys2Proof.Machine

set_option Elab.async false

/-! ## WellFormed refuses each ill-formed term -/

theorem test_params_lenBits_too_small : ¬ (⟨2, 3, 3⟩ : Params).Valid ∧ (⟨3, 7, 7⟩ : Params).Valid := by decide
theorem test_params_inCap_too_large : ¬ (⟨3, 8, 7⟩ : Params).Valid := by decide
theorem test_params_outCap_too_large : ¬ (⟨3, 7, 8⟩ : Params).Valid := by decide
theorem test_params_named : Params.ref.Valid ∧ Params.tiny.Valid ∧ Params.skew.Valid := by decide
theorem test_move_register_7 :
    (Move.read .regs 7).wf .tiny = false ∧ (Move.write .regs 7 0).wf .tiny = false ∧
    (Move.read .regs 6).wf .tiny = true := by decide
theorem test_move_in_beyond_capacity :
    (Move.read .inBuf 16).wf .tiny = false ∧ (Move.write .inBuf 16 0).wf .tiny = false ∧
    (Move.read .inBuf 15).wf .tiny = true := by decide
theorem test_move_out_beyond_capacity :
    (Move.read .outBuf 20).wf .tiny = false ∧ (Move.write .outBuf 20 0).wf .tiny = false ∧
    (Move.read .outBuf 19).wf .tiny = true := by decide
theorem test_stmt_loadx_too_long :
    (Stmt.loadx (List.replicate 17 0#8)).wf .tiny = false ∧ (Stmt.loadx (List.replicate 16 0#8)).wf .tiny = true := by
  decide
theorem test_stmt_loads_too_long_or_wide :
    (Stmt.loads "aaaaaaaaaaaaaaaaa").wf .tiny = false ∧ (Stmt.loads "λ").wf .tiny = false ∧
    (Stmt.loads "Hello").wf .tiny = true := by decide
theorem test_move_stmt_ill_formed :
    (Move.stmt (.setlen 256)).wf .tiny = false ∧ (Move.stmt .copy).wf .tiny = true := by decide
theorem test_stmt_setlen_too_wide :
    (Stmt.setlen 256).wf .tiny = false ∧ (Stmt.setlen 255).wf .tiny = true := by decide
theorem test_stmt_expect_register_7 :
    (Stmt.expect 7 0).wf .tiny = false ∧ (Stmt.expect 6 0).wf .tiny = true := by decide
theorem test_stmt_expectx_too_long :
    (Stmt.expectx (List.replicate 21 0#8)).wf .tiny = false ∧
    (Stmt.expectx (List.replicate 20 0#8)).wf .tiny = true := by decide
theorem test_stmt_expects_too_long_or_wide :
    (Stmt.expects "aaaaaaaaaaaaaaaaaaaaa").wf .tiny = false ∧ (Stmt.expects "λ").wf .tiny = false := by decide

/-! ## Decoding: the `OP` bit in bit 0 of the word, 0 for ENCODE and 1 for DECODE (R90, opcode_table.json) -/

theorem test_decode_encode_word : decodeInstr [0b00000000#8] = .ok (.encode, []) := by decide
theorem test_decode_decode_word : decodeInstr [0b00000001#8] = .ok (.decode, []) := by decide
theorem test_decode_ignores_high_bits :
    decodeInstr [0b11111110#8] = .ok (.encode, []) ∧ decodeInstr [0b11111111#8] = .ok (.decode, []) := by decide
theorem test_decode_no_word : decodeInstr [] = .error .noWord := by decide
theorem test_decodeTableWord :
    decodeTableWord 1 0 = some .encode ∧ decodeTableWord 1 1 = some .decode ∧
    decodeTableWord 8 0 = some .encode ∧ decodeTableWord 8 1 = some .decode := by decide

/-! ## One step against the vectors of spec/95_test_vectors.md -/

/-- An instance with these units loaded and `OP` set, in IDLE. -/
def loaded (p : Params) (op : BitVec 1) (us : List Byte) : State :=
  { State.resetWith p with op := op, lenIn := us.length, inBuf := us.zipIdx.map fun x => (x.2, x.1) }

/-- The next state of an answer, or the given one. -/
def nextOr (d : State) (o : Answer) : State :=
  match o with
  | .next t => t
  | .fault _ => d
  | .refused _ => d

/-- `Hello` (V1). -/
def hello : List Byte := [0x48#8, 0x65#8, 0x6C#8, 0x6C#8, 0x6F#8]

/-- `nm=QNzV` (V1). -/
def helloText : List Byte := [0x6E#8, 0x6D#8, 0x3D#8, 0x51#8, 0x4E#8, 0x7A#8, 0x56#8]

/-- `nm=QN` and a space (section 2.8). -/
def badText : List Byte := [0x6E#8, 0x6D#8, 0x3D#8, 0x51#8, 0x4E#8, 0x20#8]

/-- V1, section 1: ENCODE of `Hello` in one step of the environment. -/
theorem test_encode_hello :
    answers (step ((loaded .tiny 1#1 hello).withMove (.call 0x00#8)))
      (fun t => t.result == some (.done helloText) && t.op == 0#1) = true := by decide +kernel

/-- Section 2.9: ENCODE of 17 bytes in `TINY` is too large. -/
theorem test_encode_too_large :
    answers (execEncode { State.resetWith .tiny with lenIn := 17 })
      (fun t => t.result == some (.error .inputTooLarge 0)) = true := by decide +kernel

/-- Section 2.7: DECODE of `%nSc1`, whose value is `2^32`, gives four zeros. -/
theorem test_decode_wraps :
    answers (execDecode (loaded .tiny 0#1 [0x25#8, 0x6E#8, 0x53#8, 0x63#8, 0x31#8]))
      (fun t => t.result == some (.done [0x00#8, 0x00#8, 0x00#8, 0x00#8]) && t.op == 1#1) = true := by decide +kernel

/-- Section 2.8: the lone trailing space of `nm=QN ` is found at index 5. -/
theorem test_decode_invalid_character :
    answers (execDecode (loaded .tiny 0#1 badText))
      (fun t => t.result == some (.error .invalidCharacter 5) && t.lenOut == 0) = true := by decide +kernel

/-- The host's table words run as the first step after reset (log 19). -/
theorem test_withFetchWord_runs :
    answers (step (State.reset.withFetchWord 1 0)) (fun t => t.op == 0#1 && t.status == .done) = true ∧
    answers (step (State.reset.withFetchWord 1 1)) (fun t => t.op == 1#1 && t.status == .done) = true := by
  decide +kernel

theorem test_reset_memory_wf : State.reset.inBuf.wf ∧ State.reset.outBuf.wf := by decide

/-! ## States that meet the invariant -/

/-- ENCODE of `Hello` issued, IDLE. -/
def encIdle : State := loaded .tiny 0#1 hello
/-- ENCODE of `Hello` started: BUSY, no group done. -/
def encBusy : State := nextOr encIdle (step (encIdle.withMove (.write .regs 2 1)))
/-- ENCODE of `Hello` with both groups done. -/
def encEnd : State := nextOr encBusy (Host.Core.run core 2 encBusy)
/-- ENCODE of `Hello` ended. -/
def encDone : State := nextOr encEnd (step encEnd)
/-- DECODE of `nm=QNzV` issued, IDLE. -/
def decIdle : State := loaded .tiny 1#1 helloText
/-- DECODE of `nm=QNzV` started. -/
def decBusy : State := nextOr decIdle (step (decIdle.withMove (.write .regs 2 1)))
/-- DECODE of `nm=QNzV` with both groups done. -/
def decEnd : State := nextOr decBusy (Host.Core.run core 2 decBusy)
/-- DECODE of `nm=QN ` with one group done: the next group holds an invalid character. -/
def badBusy : State :=
  nextOr decIdle (Host.Core.run core 2 ((loaded .tiny 1#1 badText).withMove (.write .regs 2 1)))
/-- DECODE of `nm=QN ` ended. -/
def badDone : State := nextOr badBusy (step badBusy)

/-- ENCODE of 16 bytes in `TINY`: input and output at their capacities. -/
def fullIdle : State := loaded .tiny 0#1 (List.replicate 16 0xFF#8)
/-- ENCODE of 17 bytes in `TINY`, one more than `IN_CAP`; nothing is loaded. -/
def overIdle : State := { State.resetWith .tiny with lenIn := 17 }
/-- DECODE of 17 characters in `TINY`. -/
def overText : State := { State.resetWith .tiny with lenIn := 17, op := 1#1 }
/-- ENCODE of 9 bytes in `SKEW`: 15 characters do not fit its 10 units. -/
def skewIdle : State := loaded .skew 0#1 (List.replicate 9 0#8)
/-- DECODE of 11 characters in `SKEW`, whose `IN` takes them: 12 bytes do not fit its 10 units. -/
def skewText : State := loaded .skew 1#1 (List.replicate 11 0x30#8)

theorem encIdle_inv : encIdle.Inv := by constructor <;> decide +kernel
theorem encBusy_inv : encBusy.Inv := by constructor <;> decide +kernel
theorem encEnd_inv : encEnd.Inv := by constructor <;> decide +kernel
theorem encDone_inv : encDone.Inv := by constructor <;> decide +kernel
theorem decIdle_inv : decIdle.Inv := by constructor <;> decide +kernel
theorem decBusy_inv : decBusy.Inv := by constructor <;> decide +kernel
theorem decEnd_inv : decEnd.Inv := by constructor <;> decide +kernel
theorem badBusy_inv : badBusy.Inv := by constructor <;> decide +kernel
theorem badDone_inv : badDone.Inv := by constructor <;> decide +kernel

/-! ## Statements at their turn (R94) -/

/-- COPY in DONE of `Hello` moves the seven characters and writes `LEN_IN`, whatever stood in front of it (R94). -/
theorem test_copy_uses_its_turn :
    answers (step (encDone.withMove (.stmt .copy)))
      (fun t => t.queue.length == 16 && t.queue.getLast? == some (.write .regs 1 7) && !t.wrong) = true := by
  decide +kernel

/-- EXPECTS of the text of V1 is met, and of another text is not (R94). -/
theorem test_expects_reads_the_result :
    answers (step (encDone.withMove (.stmt (.expects "nm=QNzV")))) (fun t => !t.wrong) = true ∧
    answers (step (encDone.withMove (.stmt (.expects "nm=QNzW")))) (fun t => t.wrong) = true := by decide +kernel

/-! ## Witnesses: for each statement with hypotheses, a state and operands that meet them together -/

theorem witness_StepRunsTheDecodedOperation :
    decodeTableWord 1 0 = some .encode ∧ decodeTableWord 8 1 = some .decode := by decide

theorem witness_LookupFunctionsInvert :
    charValid 0x21#8 = true ∧ charValid 0x7D#8 = true ∧ charValid 0x20#8 = false ∧ charValid 0x80#8 = false := by
  decide +kernel

theorem witness_RadixDigitsExactAndUnique :
    4437053124 < 85 ^ 5 ∧ digitValue ⟨84, 84, 84, 84, 84⟩ = 4437053124 ∧ (4294967295 : Nat) < 2 ^ 32 ∧
    digitValue ⟨82, 23, 54, 12, 0⟩ = 4294967295 := by decide +kernel

theorem witness_GroupValueWrapsSilently :
    2 ^ 32 ≤ digitValue ⟨82, 23, 54, 12, 1⟩ ∧ ¬ 2 ^ 32 ≤ digitValue ⟨82, 23, 54, 12, 0⟩ ∧
    [82, 23, 54, 12, 0] < (⟨82, 23, 54, 12, 1⟩ : DigitGroup).toList.map Fin.val := by decide +kernel

theorem witness_DecodeOfEncodeIsIdentity :
    tooLarge .tiny .encode hello.length = false ∧ tooLarge .tiny .decode (encodeBytes hello).length = false := by
  decide +kernel

theorem witness_EncodeLengthsByRemainder :
    (hello.length = 4 * 1 + 1 ∧ 1 ≤ 3) ∧ (([] : List Byte).length = 4 * 0 + 0) ∧
    ((List.replicate 7 0#8).length = 4 * 1 + 3 ∧ 3 ≤ 3) := by decide

theorem witness_DecodeLengthsByRemainder :
    (helloText.length = 5 * 1 + 2 ∧ 2 ≤ 4) ∧ (badText.length = 5 * 1 + 1) ∧
    ((List.replicate 9 0x30#8).length = 5 * 1 + 4 ∧ 4 ≤ 4) := by decide

theorem witness_EncodeTextIsValid : 0x6E#8 ∈ encodeBytes hello := by decide +kernel

theorem witness_LoneTrailingCharacterDropped :
    (helloText.take 5).length % 5 = 0 ∧ tooLarge .tiny .decode ((helloText.take 5).length + 1) = false ∧
    (∀ x ∈ helloText.take 5, charValid x = true) ∧ charValid 0x23#8 = true ∧ charValid 0x20#8 = false := by
  decide +kernel

theorem witness_DecodeErrorPriority :
    tooLarge .tiny .decode (List.replicate 17 0x20#8).length = true ∧ tooLarge .tiny .decode badText.length = false ∧
    badText[5]? = some 0x20#8 ∧ charValid 0x20#8 = false ∧ (∀ x ∈ badText.take 5, charValid x = true) := by
  decide +kernel

/-- Also the smallest instances: `LEN_BITS` 3 with no unit, and with as many as it admits. -/
theorem witness_ResetMeetsInvariant :
    Params.tiny.Valid ∧ (⟨3, 0, 0⟩ : Params).Valid ∧ (⟨3, 7, 7⟩ : Params).Valid := by decide

theorem witness_StartAfterResetEncodesEmpty : Params.ref.Valid ∧ (⟨3, 0, 0⟩ : Params).Valid := by decide

/-- ENCODE and DECODE that fit, at the capacity in the third; then `IN_CAP` binds for ENCODE and for DECODE, and `OUT_CAP`
binds for ENCODE and for DECODE. -/
theorem witness_StartBeginsOrRaises :
    (encIdle.Inv ∧ encIdle.status ≠ .busy ∧ encIdle.op = 0#1 ∧ tooLarge .tiny .encode encIdle.lenIn = false) ∧
    (decIdle.Inv ∧ decIdle.status ≠ .busy ∧ decIdle.op = 1#1 ∧ tooLarge .tiny .decode decIdle.lenIn = false) ∧
    (fullIdle.Inv ∧ fullIdle.status ≠ .busy ∧ fullIdle.lenIn ≤ fullIdle.params.inCap ∧
      5 * ceilQuot fullIdle.lenIn 4 ≤ fullIdle.params.outCap) ∧
    (overIdle.Inv ∧ overIdle.status ≠ .busy ∧ overIdle.params.inCap < overIdle.lenIn ∧ overIdle.op = 0#1) ∧
    (overText.Inv ∧ overText.status ≠ .busy ∧ overText.params.inCap < overText.lenIn ∧ overText.op = 1#1) ∧
    (skewIdle.Inv ∧ skewIdle.status ≠ .busy ∧ skewIdle.params.outCap < 5 * ceilQuot skewIdle.lenIn 4) ∧
    (skewText.Inv ∧ skewText.status ≠ .busy ∧ skewText.op = 1#1 ∧ skewText.lenIn ≤ skewText.params.inCap ∧
      skewText.params.outCap < 4 * ceilQuot skewText.lenIn 5) :=
  ⟨⟨encIdle_inv, by decide +kernel⟩, ⟨decIdle_inv, by decide +kernel⟩,
    ⟨by constructor <;> decide +kernel, by decide +kernel⟩, ⟨by constructor <;> decide +kernel, by decide +kernel⟩,
    ⟨by constructor <;> decide +kernel, by decide +kernel⟩, ⟨by constructor <;> decide +kernel, by decide +kernel⟩,
    ⟨by constructor <;> decide +kernel, by decide +kernel⟩⟩

theorem witness_GroupIndicesInRange :
    (encBusy.Inv ∧ encBusy.status = .busy ∧ encBusy.grp < encBusy.ngrp ∧
      inIndex encBusy.instr encBusy.grp 3 < encBusy.lenIn) ∧
    (badBusy.Inv ∧ badBusy.status = .busy ∧ badBusy.grp < badBusy.ngrp ∧
      inIndex badBusy.instr badBusy.grp 0 < badBusy.lenIn) :=
  ⟨⟨encBusy_inv, by decide +kernel⟩, ⟨badBusy_inv, by decide +kernel⟩⟩

theorem witness_EncodeGroupStep :
    encBusy.Inv ∧ encBusy.status = .busy ∧ encBusy.op = 0#1 ∧ encBusy.grp < encBusy.ngrp :=
  ⟨encBusy_inv, by decide +kernel⟩

theorem witness_EncodeFinish :
    encEnd.Inv ∧ encEnd.status = .busy ∧ encEnd.op = 0#1 ∧ encEnd.grp = encEnd.ngrp := ⟨encEnd_inv, by decide +kernel⟩

theorem witness_DecodeGroupStep :
    decBusy.Inv ∧ decBusy.status = .busy ∧ decBusy.op = 1#1 ∧ decBusy.grp < decBusy.ngrp ∧
    (∀ k < 5, 5 * decBusy.grp + k < decBusy.lenIn → charValid (decBusy.inUnit (5 * decBusy.grp + k)) = true) :=
  ⟨decBusy_inv, by decide +kernel⟩

theorem witness_DecodeGroupRaisesInvalidCharacter :
    badBusy.Inv ∧ badBusy.status = .busy ∧ badBusy.op = 1#1 ∧ badBusy.grp < badBusy.ngrp ∧
    5 * badBusy.grp + 0 < badBusy.lenIn ∧ charValid (badBusy.inUnit (5 * badBusy.grp + 0)) = false ∧
    (∀ j < 0, charValid (badBusy.inUnit (5 * badBusy.grp + j)) = true) := ⟨badBusy_inv, by decide +kernel⟩

theorem witness_DecodeFinish :
    decEnd.Inv ∧ decEnd.status = .busy ∧ decEnd.op = 1#1 ∧ decEnd.grp = decEnd.ngrp := ⟨decEnd_inv, by decide +kernel⟩

theorem witness_IdleCoreKeepsItsState :
    encIdle.status ≠ .busy ∧ encIdle.queue = [] ∧ encDone.status ≠ .busy ∧ badDone.status ≠ .busy := by decide +kernel

theorem witness_OperationComputesItsFunction :
    (encIdle.Inv ∧ encIdle.status ≠ .busy) ∧ (encDone.Inv ∧ encDone.status = .done) ∧
    (badDone.Inv ∧ badDone.status = .error) :=
  ⟨⟨encIdle_inv, by decide +kernel⟩, ⟨encDone_inv, by decide +kernel⟩, ⟨badDone_inv, by decide +kernel⟩⟩

theorem witness_EncodeCompletes :
    encIdle.Inv ∧ encIdle.status ≠ .busy ∧ encIdle.lenIn ≤ encIdle.params.inCap ∧
    5 * ceilQuot encIdle.lenIn 4 ≤ encIdle.params.outCap ∧ 5 * 1 + 1 < resultLen .encode encIdle.lenIn :=
  ⟨encIdle_inv, by decide +kernel⟩

theorem witness_DecodeCompletes :
    decIdle.Inv ∧ decIdle.status ≠ .busy ∧ decIdle.lenIn ≤ decIdle.params.inCap ∧
    4 * ceilQuot decIdle.lenIn 5 ≤ decIdle.params.outCap ∧
    (∀ k < decIdle.lenIn, charValid (decIdle.inUnit k) = true) ∧ 4 * 1 + 0 < resultLen .decode decIdle.lenIn := ⟨decIdle_inv, by decide +kernel⟩

theorem witness_DecodeRaisesInvalidCharacter :
    badDone.Inv ∧ badDone.status ≠ .busy ∧ badDone.lenIn ≤ badDone.params.inCap ∧
    4 * ceilQuot badDone.lenIn 5 ≤ badDone.params.outCap ∧ (∃ k < badDone.lenIn, charValid (badDone.inUnit k) = false) :=
  ⟨badDone_inv, by decide +kernel⟩

theorem witness_OperationRaisesInputTooLarge :
    (overIdle.status ≠ .busy ∧ overIdle.params.inCap < overIdle.lenIn) ∧
    (skewIdle.status ≠ .busy ∧ skewIdle.params.outCap < 5 * ceilQuot skewIdle.lenIn 4) ∧
    (skewText.status ≠ .busy ∧ skewText.lenIn ≤ skewText.params.inCap ∧
      skewText.params.outCap < 4 * ceilQuot skewText.lenIn 5) := by decide +kernel

/-- ENCODE and DECODE answer from these states. -/
theorem witness_OperationFrame :
    (encIdle.Inv ∧ answers (exec .encode encIdle) (fun _ => true) = true) ∧
    (decIdle.Inv ∧ answers (exec .decode decIdle) (fun _ => true) = true) :=
  ⟨⟨encIdle_inv, by decide +kernel⟩, ⟨decIdle_inv, by decide +kernel⟩⟩

/-- A group step of ENCODE and one of DECODE after which the operation goes on, and a host read in its middle; index 5 of
`OUT` is no unit of the first group of either. -/
theorem witness_OutWrittenGroupByGroup :
    (encBusy.Inv ∧ encBusy.status = .busy ∧
      answers (step encBusy) (fun t => t.status == .busy && t.grp == encBusy.grp + 1) = true ∧
      ∀ k < outSize encBusy.instr, 5 ≠ outIndex encBusy.instr encBusy.grp k) ∧
    (decBusy.Inv ∧ decBusy.status = .busy ∧
      answers (step decBusy) (fun t => t.status == .busy && t.grp == decBusy.grp + 1) = true ∧
      ∀ k < outSize decBusy.instr, 5 ≠ outIndex decBusy.instr decBusy.grp k) ∧
    ((encBusy.withMove (.read .regs 3)).Inv ∧
      answers (step (encBusy.withMove (.read .regs 3))) (fun t => t.status == .busy && t.grp == encBusy.grp) = true) :=
  ⟨⟨encBusy_inv, by decide +kernel⟩, ⟨decBusy_inv, by decide +kernel⟩,
    ⟨by constructor <;> decide +kernel, by decide +kernel⟩⟩

theorem witness_EmptyInputEndsDone :
    State.reset.status ≠ .busy ∧ State.reset.lenIn = 0 := by decide

/-- Two states with one input that differ in `STATE`, `LEN_OUT` and `OUT`. -/
theorem witness_ResultDependsOnOperandsOnly :
    encIdle.Inv ∧ encDone.Inv ∧ encIdle.status ≠ .busy ∧ encDone.status ≠ .busy ∧ encDone.params = encIdle.params ∧
    encDone.lenIn = encIdle.lenIn ∧ (∀ k < encIdle.lenIn, encDone.inUnit k = encIdle.inUnit k) ∧
    encDone.lenOut ≠ encIdle.lenOut ∧ encDone.outBuf.read 0 ≠ encIdle.outBuf.read 0 :=
  ⟨encIdle_inv, encDone_inv, by decide +kernel⟩

theorem witness_AtomicCallIsReferenceRun :
    (encIdle.Inv ∧ encIdle.status ≠ .busy) ∧ (badDone.Inv ∧ badDone.status ≠ .busy) :=
  ⟨⟨encIdle_inv, by decide +kernel⟩, ⟨badDone_inv, by decide +kernel⟩⟩

theorem witness_OneInstanceRoundTrip :
    encIdle.Inv ∧ encIdle.status ≠ .busy ∧ tooLarge encIdle.params .encode encIdle.lenIn = false ∧
    tooLarge encIdle.params .decode (resultLen .encode encIdle.lenIn) = false := ⟨encIdle_inv, by decide +kernel⟩

theorem witness_StepKeepsInvariant :
    (encBusy.Inv ∧ answers (step encBusy) (fun t => t != encBusy) = true) ∧
    (badBusy.Inv ∧ answers (step badBusy) (fun t => t != badBusy) = true) :=
  ⟨⟨encBusy_inv, by decide +kernel⟩, ⟨badBusy_inv, by decide +kernel⟩⟩

/-- A state that meets the invariant, whose next move reads register 7. -/
def readsRegister7 : State := encIdle.withMove (.read .regs 7)

theorem witness_OnlyMissingIndicesFault :
    readsRegister7.Inv ∧ (match step readsRegister7 with
      | .next _ => false
      | .fault f => f == .noSuchUnit .regs 7
      | .refused _ => false) = true := ⟨by constructor <;> decide +kernel, by decide +kernel⟩

theorem witness_OperationEndsInTime : encBusy.Inv ∧ encBusy.status = .busy ∧ encBusy.queue = [] :=
  ⟨encBusy_inv, by decide +kernel⟩

theorem witness_WaitReturnsTheEnd :
    (encBusy.Inv ∧ encBusy.status = .busy) ∧ (badBusy.Inv ∧ badBusy.status = .busy) :=
  ⟨⟨encBusy_inv, by decide +kernel⟩, ⟨badBusy_inv, by decide +kernel⟩⟩

/-- A step for each way `STATE` can move: unchanged, by START, by CORE, by a call and by reset. -/
theorem witness_StatusMovesOnlyAsListed :
    answers (step encIdle) (fun t => t.status == .idle) = true ∧
    answers (step (encIdle.withMove (.write .regs 2 0))) (fun t => t.status == .busy) = true ∧
    answers (step badBusy) (fun t => t.status == .error) = true ∧
    answers (step (encBusy.withMove (.stmt .wait))) (fun t => t.status == .busy) = true ∧
    answers (step (encEnd.withMove .core)) (fun t => t.status == .done) = true ∧
    answers (step (decIdle.withMove (.call 1#8))) (fun t => t.status == .done) = true ∧
    answers (step (badDone.withMove .reset)) (fun t => t.status == .idle) = true := by decide +kernel

theorem witness_ResultKeptUntilStartOrReset :
    encDone.status = .done ∧ badDone.status = .error ∧
    answers (step (encDone.withMove (.write .inBuf 0 1))) (fun _ => true) = true ∧
    answers (step (badDone.withMove (.write .regs 1 9))) (fun _ => true) = true := by decide +kernel

theorem witness_StatusRegistersConsistent :
    (encIdle.Inv ∧ encIdle.status = .idle) ∧ (encBusy.Inv ∧ encBusy.status = .busy) ∧
    (encDone.Inv ∧ encDone.status = .done) ∧ (badDone.Inv ∧ badDone.status = .error) :=
  ⟨⟨encIdle_inv, by decide +kernel⟩, ⟨encBusy_inv, by decide +kernel⟩, ⟨encDone_inv, by decide +kernel⟩,
    ⟨badDone_inv, by decide +kernel⟩⟩

theorem witness_RegisterReads : encIdle.status ≠ .busy ∧ encDone.status ≠ .busy := by decide +kernel

theorem witness_BufferReads :
    (encIdle.status ≠ .busy ∧ 15 < encIdle.params.inCap) ∧
    (encDone.Inv ∧ encDone.status = .done ∧ 6 < encDone.lenOut) :=
  ⟨by decide +kernel, encDone_inv, by decide +kernel⟩

theorem witness_ReadsChangeNothing :
    encBusy.status = .busy ∧ (encBusy.Inv ∧ Space.regs.has encBusy.params 6 = true ∧
      Space.inBuf.has encBusy.params 15 = true ∧ Space.outBuf.has encBusy.params 19 = true) :=
  ⟨by decide +kernel, encBusy_inv, by decide +kernel⟩

theorem witness_HostWrites : encIdle.status ≠ .busy ∧ 0 < encIdle.params.inCap ∧ 15 < encIdle.params.inCap := by
  decide +kernel

theorem witness_ReadOnlyWritesIgnored : (3 ≤ 3 ∧ 3 ≤ 6) ∧ (3 ≤ 6 ∧ 6 ≤ 6) ∧ 19 < encBusy.params.outCap := by
  decide +kernel

theorem witness_BusyWritesRefused : encBusy.status = .busy ∧ 2 < 3 ∧ 15 < encBusy.params.inCap := by decide +kernel

theorem witness_MissingIndicesFault :
    Space.regs.has Params.tiny 7 = false ∧ Space.inBuf.has Params.tiny 16 = false ∧
    Space.outBuf.has Params.tiny 20 = false := by decide

theorem witness_LoadxLoadsTheInput :
    encDone.Inv ∧ encDone.status ≠ .busy ∧ (List.replicate 16 0x41#8).length ≤ encDone.params.inCap :=
  ⟨encDone_inv, by decide +kernel⟩

theorem witness_BufferWriteLaws :
    4 < hello.length ∧ (2 < 3 ∨ 3 + hello.length ≤ 2) ∧ (8 < 3 ∨ 3 + hello.length ≤ 8) ∧
    Memory.wf [(0, 0x48#8), (7, 0x65#8)] := by decide

end Sys2Proof.Tests
end

section
/-! SUPPORT. The facts the statements about the state share: a host access that is made, FINISH as CORE's step, a whole
operation from its issue to its end, and every move under the invariant (R36, R102, R225, R231). -/

namespace Sys2Proof.Machine

/-- A host read of an index that exists changes what the host has read, and nothing else (R58). -/
theorem hostRead_of_has {s : State} {sp : Space} {i : Nat} (h : sp.has s.params i = true) :
    hostRead sp i s = .next { s with reply := some (readValue s sp i) } := by
  simp [hostRead, h]

theorem hostRead_of_not_has {s : State} {sp : Space} {i : Nat} (h : sp.has s.params i = false) :
    hostRead sp i s = .fault (.noSuchUnit sp i) := by
  simp [hostRead, h]

/-- A host write to a read-only place that exists is ignored in every state (R36, R50). -/
theorem hostWrite_of_ignored {s : State} {sp : Space} {i : Nat} (h : sp.has s.params i = true)
    (hi : ignoresWrites sp i = true) (v : Nat) : hostWrite sp i v s = .next s := by
  simp [hostWrite, h, hi]

/-- A host write outside BUSY to a place that exists and takes writes is accepted (R36, R227). -/
theorem hostWrite_of_accepted {s : State} {sp : Space} {i : Nat} (h : sp.has s.params i = true)
    (hi : ignoresWrites sp i = false) (hb : s.status ≠ .busy) (v : Nat) :
    hostWrite sp i v s = .next (acceptWrite sp i v s) := by
  simp [hostWrite, h, hi, hb]

/-- Outside BUSY a host read of register `r` shows what it holds (R227). -/
theorem readValue_regs {s : State} (hb : s.status ≠ .busy) (r : Nat) : readValue s .regs r = regValue s r := by
  simp [readValue, hb]

theorem coreTurn_of_busy {s : State} (hb : s.status = .busy) : coreTurn s = coreStep s := by
  simp [coreTurn, hb]

/-- With every group done CORE's step is FINISH (R102, R132). -/
theorem coreStep_of_grp_eq_ngrp {s : State} (h : s.grp = s.ngrp) : coreStep s = .next (finishOperation s.instr s) := by
  rw [coreStep_eq]
  cases s.instr <;> simp [encStep, decStep, stepSequence, h]

/-- The issue of an operation while BUSY is refused (R227, log 7). -/
theorem exec_of_busy {s : State} (hb : s.status = .busy) (i : Instr) :
    exec i s = .refused (.hostWriteWhileBusy .regs 0) := by
  rw [exec_unit]; simp [runOperation, hb]

/-- Outside BUSY an operation is its unit's run from START, with `OP` written first (R94, R231, log 20). -/
theorem exec_of_not_busy {s : State} (hb : s.status ≠ .busy) (i : Instr) :
    exec i s = runUnit (unitOf i) (groupsOf i s.lenIn + 1) (startOperation i { s with op := opOf i }) := by
  rw [exec_unit]; simp [runOperation, hb]

theorem setOp_instr (s : State) (i : Instr) : ({ s with op := opOf i } : State).instr = i := decodeOp_opOf i

theorem startOperation_same (i : Instr) (s : State) : SameOperands s (startOperation i s) :=
  ⟨startOperation_params i s, startOperation_op i s, startOperation_lenIn i s, startOperation_inBuf i s,
    startOperation_queue i s, startOperation_reply i s, startOperation_wrong i s, startOperation_epoch i s⟩

/-- What does not fit is `InputTooLarge` by the operation's function too (R192, R194). -/
theorem opResult_of_tooLarge {p : Params} {i : Instr} {us : List Byte} (h : tooLarge p i us.length = true) :
    opResult p i us = .error .inputTooLarge 0 := by
  cases i <;> simp [opResult, encodeResult, decodeResult, h]

/-- From START the unit runs to DONE or ERROR with the result the operation's function gives, keeps the invariant, and
touches no operand (R195, R224, R225). -/
theorem runUnit_startOperation {s : State} (h : s.Inv) :
    ∃ t, runUnit (unitOf s.instr) (groupsOf s.instr s.lenIn + 1) (startOperation s.instr s) = .next t ∧ t.Inv ∧
      SameOperands s t ∧ (t.status = .done ∨ t.status = .error) ∧
      t.result = some (opResult s.params s.instr s.input) := by
  have hI := startOperation_inv h
  have hS := startOperation_same s.instr s
  cases hf : tooLarge s.params s.instr s.lenIn with
  | true =>
    rw [startOperation_of_tooLarge hf] at hI hS ⊢
    refine ⟨_, runUnit_of_not_busy _ _ (by simp), hI, hS, by simp, ?_⟩
    rw [opResult_of_tooLarge (by rwa [input_length])]
    simp [State.result, trunc]
  | false =>
    rw [startOperation_of_fits hf] at hI hS ⊢
    have hn : (beginOperation s.instr s).ngrp ≤ groupsOf s.instr s.lenIn := Nat.mod_le _ _
    obtain ⟨t, ht, hIt, hSt, hd, hr⟩ := runUnit_core (groupsOf s.instr s.lenIn + 1) hI rfl
      (Nat.succ_le_succ (Nat.le_trans (Nat.sub_le _ _) hn))
    exact ⟨t, ht, hIt, hS.trans hSt, hd, hr.trans (congrArg some hS.opResult_eq)⟩

/-- An operation issued outside BUSY ends in DONE or ERROR with the result its function gives, keeps the invariant, and
touches no operand once the issue has written `OP` (R100, R130, R195, R231). -/
theorem exec_ends {s : State} (h : s.Inv) (hb : s.status ≠ .busy) (i : Instr) :
    ∃ t, exec i s = .next t ∧ t.Inv ∧ SameOperands { s with op := opOf i } t ∧
      (t.status = .done ∨ t.status = .error) ∧ t.result = some (opResult s.params i s.input) := by
  have hrun := runUnit_startOperation (setOp_inv h hb (opOf i))
  rw [setOp_instr] at hrun
  rw [exec_of_not_busy hb]
  exact hrun

/-- An operation that answers was issued outside BUSY (R227). -/
theorem not_busy_of_exec {i : Instr} {s t : State} (ht : exec i s = .next t) : s.status ≠ .busy := by
  intro hb; rw [exec_of_busy hb] at ht; cases ht

theorem exec_same {i : Instr} {s t : State} (h : s.Inv) (ht : exec i s = .next t) :
    SameOperands { s with op := opOf i } t := by
  obtain ⟨u, hu, _, hS, _⟩ := exec_ends h (not_busy_of_exec ht) i
  rw [ht] at hu; cases hu; exact hS

/-- A whole operation keeps the invariant (R231). -/
theorem exec_inv {i : Instr} {s t : State} (h : s.Inv) (ht : exec i s = .next t) : t.Inv := by
  obtain ⟨u, hu, hI, _⟩ := exec_ends h (not_busy_of_exec ht) i
  rw [ht] at hu; cases hu; exact hI

/-- A host read keeps the invariant (R58). -/
theorem hostRead_inv {sp : Space} {i : Nat} {s t : State} (h : s.Inv) (ht : hostRead sp i s = .next t) : t.Inv := by
  cases hh : sp.has s.params i with
  | true => rw [hostRead_of_has hh] at ht; cases ht; exact setQueue_inv h _ _
  | false => rw [hostRead_of_not_has hh] at ht; cases ht

/-- A host write keeps the invariant, accepted or ignored (R36, R227). -/
theorem hostWrite_inv {sp : Space} {i v : Nat} {s t : State} (h : s.Inv) (ht : hostWrite sp i v s = .next t) :
    t.Inv := by
  rcases hostWrite_cases sp i v s with ⟨_, hw⟩ | ⟨_, _, hw⟩ | ⟨_, _, _, hw⟩ | ⟨hh, _, hb, hw⟩ <;>
    rw [hw] at ht <;> cases ht
  · exact h
  · exact acceptWrite_inv h hb hh v

/-- A poll of WAIT keeps the invariant, whether CORE takes a step after it or not (R94). -/
theorem hostWait_inv {s t : State} (h : s.Inv) (ht : hostWait s = .next t) : t.Inv := by
  unfold hostWait at ht
  split at ht
  · next hb => exact coreStep_inv (setQueue_inv h (.wait :: s.queue) (some (regValue s 3))) hb ht
  · cases ht; exact setQueue_inv h _ _

/-- Every move of the environment keeps the invariant (R61). -/
theorem doMove_inv {m : Move} {s t : State} (h : s.Inv) (ht : doMove m s = .next t) : t.Inv := by
  cases m with
  | read sp i => exact hostRead_inv h ht
  | write sp i v => exact hostWrite_inv h ht
  | wait => exact hostWait_inv h ht
  | core => exact coreTurn_inv h ht
  | reset => cases ht; exact resetStep_inv h
  | call w => exact exec_inv h ht
  | stmt st => cases ht; exact takeUpStmt_inv h st

/-- Two states with one `LEN_IN` and the same units below it have one input (R34). -/
theorem input_eq_of_units {s s' : State} (hl : s'.lenIn = s.lenIn) (hu : ∀ k < s.lenIn, s'.inUnit k = s.inUnit k) :
    s'.input = s.input := by
  simp only [State.input, hl]
  exact List.map_congr_left fun k hk => hu k (List.mem_range.1 hk)

/-- The pad completes a group and is none itself (R33). -/
theorem padOf_lt (i : Instr) (n : Nat) : padOf i n < inSize i := Nat.mod_lt _ (by cases i <;> decide)

/-- In DONE every unit of the result is written, so a `LEN_OUT` above `OUT_CAP` would have one written outside `OUT`
(R29, R57). -/
theorem lenOut_le_outCap {s : State} (h : s.Inv) (hd : s.status = .done) : s.lenOut ≤ s.params.outCap := by
  by_contra hlt
  obtain ⟨u, hu⟩ := Option.isSome_iff_exists.1 (h.done_written hd s.params.outCap (by omega))
  exact absurd (Memory.lt_of_read h.out_extent hu) (Nat.lt_irrefl _)

/-- A character's entry stands at its code less 32 in the decode table (R21). -/
theorem decRom_getElem?_of_decEntry {j : Nat} (hj : j < 96) {c : Byte} (hc : c.toNat = j + 32) :
    decRom[j]? = some (decEntry c) := by
  have hlt : j < decRom.length := by rw [decRom_length]; exact hj
  rw [decEntry, if_pos (by omega), hc, Nat.add_sub_cancel, List.getD_eq_getElem?_getD, List.getElem?_eq_getElem hlt,
    Option.getD_some]

/-- The encode table at a digit holds the digit's character (R20, R88). -/
theorem encRom_getElem?_digit (d : Digit) : encRom[d.val]? = some (charOf d) :=
  List.getElem?_eq_getElem _

/-- An entry of the decode table that is not valid is `(0, 0)` (R21). -/
theorem eq_absent_of_mem_decRom : ∀ e ∈ decRom, e.valid = false → e = absent := by decide

end Sys2Proof.Machine

namespace Sys2Proof.Proofs

open Sys2Proof Sys2Proof.Machine

/-! ## The statements of 10_state.md -/

/-- Settles O44: with no move pending it is CORE's turn, and otherwise the oldest move is made. -/
theorem stepKeepsInvariant : Obligations.StepKeepsInvariant := by
  intro s t h ht
  cases hq : s.queue with
  | nil => rw [step_of_empty hq] at ht; exact coreTurn_inv h ht
  | cons m rest => rw [step_of_cons hq] at ht; exact doMove_inv (setQueue_inv h rest s.reply) ht

/-- Settles O24: START finds the empty input fits and begins with no group to do, so CORE's one step is FINISH. -/
theorem startAfterResetEncodesEmpty : Obligations.StartAfterResetEncodesEmpty := by
  intro p v _
  have hfit : tooLarge p .encode 0 = false := by simp [tooLarge, groupsOf, inSize, ceilQuot]
  have hngrp : trunc p (groupsOf .encode 0) = 0 := by simp [trunc, groupsOf, inSize, ceilQuot]
  have hstart : step ((State.resetWith p).withMove (.write .regs 2 v)) =
      .next (beginOperation .encode (State.resetWith p)) := by
    rw [step_withMove]
    exact (hostWrite_of_accepted rfl rfl (by simp [State.resetWith]) v).trans
      (congrArg Host.Outcome.next (startOperation_of_fits hfit))
  have hfinish : step (beginOperation .encode (State.resetWith p)) =
      .next (finishOperation .encode (beginOperation .encode (State.resetWith p))) := by
    rw [step_of_empty rfl, coreTurn_of_busy rfl, coreStep_of_grp_eq_ngrp hngrp.symm]; rfl
  have hlen : (finishOperation .encode (beginOperation .encode (State.resetWith p))).lenOut = 0 := by
    simp [State.resetWith, trunc, groupsOf, inSize, ceilQuot]
  exact ⟨_, by rw [run_next 1 hstart, run_next 0 hfinish, run_zero], rfl, hlen, rfl, rfl, rfl,
    by simp only [State.result, finishOperation_status, State.output, hlen, List.range_zero, List.map_nil]⟩

/-- Settles O39: of the operands an operation touches `OP` alone, which its issue writes. -/
theorem operationFrame : Obligations.OperationFrame := by
  intro i s t h ht
  obtain ⟨hp, ho, hl, hin, hq, hr, hw, he⟩ := exec_same h ht
  exact ⟨hp, ho, hl, fun a => by rw [hin], hq, hr, hw, he⟩

/-- Settles O41: both states end in what the operation's function gives on one input. -/
theorem resultDependsOnOperandsOnly : Obligations.ResultDependsOnOperandsOnly := by
  intro i s s' h h' hb hb' hp hl hu
  obtain ⟨t, ht, _, _, _, hr⟩ := exec_ends h hb i
  obtain ⟨t', ht', _, _, _, hr'⟩ := exec_ends h' hb' i
  exact ⟨t, t', ht, ht', by rw [hr, hr', hp, input_eq_of_units hl hu]⟩

/-- Settles O4: entry `j` is that of code `j + 32`. If the code is a digit's character its entry is the digit's; a valid
entry's code is the character of its digit, so that of a code no digit has is not valid. -/
theorem decRomInvertsEncRom : Obligations.DecRomInvertsEncRom := by
  refine ⟨decRom_length, fun j hj d hd => ?_, fun j hj hno => ?_⟩
  · rw [encRom_getElem?_digit, Option.map_some, Option.some.injEq] at hd
    rw [decRom_getElem?_of_decEntry hj hd, decEntry_charOf, present]
  · have hc : (BitVec.ofNat 8 (j + 32)).toNat = j + 32 := by
      simp only [BitVec.toNat_ofNat]; omega
    have hentry := decRom_getElem?_of_decEntry hj hc
    have hinv : (decEntry (BitVec.ofNat 8 (j + 32))).valid = false := by
      by_contra hv
      have hchar := charOf_of_decEntry_valid _ (by simpa using hv)
      refine hno (decEntry (BitVec.ofNat 8 (j + 32))).digit ?_
      rw [encRom_getElem?_digit, hchar, Option.map_some, hc]
    rw [hentry, eq_absent_of_mem_decRom _ (List.mem_of_getElem? hentry) hinv, absent]

/-- Settles O6, from the 85 entries of the table. -/
theorem encRomDistinctPrintable : Obligations.EncRomDistinctPrintable :=
  ⟨encRom_length, by decide, by decide⟩

/-- Settles O23: a reset move answers with `resetStep`. -/
theorem resetValues : Obligations.ResetValues := by
  refine ⟨fun p => ⟨rfl, rfl, rfl, rfl, rfl, rfl⟩, fun s => ⟨resetStep s, step_withMove s .reset, ?_⟩⟩
  exact ⟨rfl, rfl, rfl, rfl, rfl, rfl, rfl, rfl⟩

/-- Settles O25: every register holds 0, no unit is listed, and STATE is IDLE. -/
theorem resetMeetsInvariant : Obligations.ResetMeetsInvariant := by
  intro p hp
  refine ⟨hp, Nat.two_pow_pos _, Nat.two_pow_pos _, Nat.two_pow_pos _, Nat.two_pow_pos _, Nat.two_pow_pos _,
    List.Pairwise.nil, ?_, List.Pairwise.nil, ?_, ?_, ?_, ?_, ?_, ?_, ?_, ?_, ?_, ?_, ?_, ?_⟩ <;>
    simp [State.resetWith]

/-- Settles O50: the parts of the invariant, with `ERR` by its code. -/
theorem statusRegistersConsistent : Obligations.StatusRegistersConsistent := by
  intro s h
  refine ⟨fun hs => ?_, fun hs => ?_, h.errIdx_zero, h.lenOut_zero, lenOut_le_outCap h,
    fun hs => ⟨h.busy_grp hs, ?_⟩⟩
  · have hne : s.status ≠ .error := by rcases hs with hs | hs | hs <;> rw [hs] <;> decide
    have he : s.err = .none := not_not.1 (mt h.err_iff.1 hne)
    rw [he]; rfl
  · have he := h.err_iff.2 hs
    cases hk : s.err with
    | none => exact absurd hk he
    | invalidCharacter => exact .inl rfl
    | inputTooLarge => exact .inr rfl
  · rw [h.busy_pad hs]
    exact padOf_lt _ _

/-- Settles O51: each of the seven registers exists and reads as what it holds. -/
theorem registerReads : Obligations.RegisterReads := by
  intro s hb x hx
  have hread : ∀ r < 7, step (s.withMove (.read .regs r)) = .next { s with reply := some (regValue s r) } := by
    intro r hr
    rw [step_withMove, ← readValue_regs hb]
    exact hostRead_of_has (by simpa [Space.has] using hr)
  simp only [List.mem_cons, List.not_mem_nil, or_false] at hx
  rcases hx with rfl | rfl | rfl | rfl | rfl | rfl | rfl <;> exact hread _ (by simp)

/-- Settles O54: outside BUSY each of the three writes is accepted. -/
theorem hostWrites : Obligations.HostWrites := by
  intro s v hb
  refine ⟨⟨opBits v, by simp [opBits], ?_⟩, ?_, fun i hi => ⟨s.inBuf.write i (BitVec.ofNat 8 v), ?_, ?_, ?_⟩⟩
  · exact hostWrite_of_accepted (sp := .regs) (i := 0) rfl rfl hb v
  · exact hostWrite_of_accepted (sp := .regs) (i := 1) rfl rfl hb v
  · exact hostWrite_of_accepted (sp := .inBuf) (decide_eq_true hi) rfl hb v
  · exact Memory.read_write_same _ _ _
  · exact fun a ha => Memory.read_write_other _ _ ha

/-- Settles O55: registers 3 to 6 and the units of `OUT` exist and ignore writes. -/
theorem readOnlyWritesIgnored : Obligations.ReadOnlyWritesIgnored := by
  intro s v
  refine ⟨fun r h3 h6 => ?_, fun i hi => ?_⟩
  · exact hostWrite_of_ignored (sp := .regs) (decide_eq_true (Nat.lt_succ_of_le h6)) (decide_eq_true h3) v
  · exact hostWrite_of_ignored (sp := .outBuf) (decide_eq_true hi) rfl v

end Sys2Proof.Proofs
end

section
/-! SUPPORT. The facts the statements about the buffers and the accesses to them share: a block of units by its two
ranges, the indices of a group, what a host access returns or faults as, and what each move can do while BUSY (R50, R57,
R58, R227). -/

namespace Sys2Proof.Machine

/-- A unit of a written block reads back (R51). -/
theorem Memory.read_writeUnits_add (m : Memory) (i : Nat) {k : Nat} {us : List Byte} (hk : k < us.length) :
    (m.writeUnits i us).read (i + k) = us[k]? := by
  rw [Memory.read_writeUnits, if_pos (by omega), Nat.add_sub_cancel_left]

/-- A unit outside a written block reads as before (R50). -/
theorem Memory.read_writeUnits_outside (m : Memory) {i a : Nat} {us : List Byte} (ha : a < i ∨ i + us.length ≤ a) :
    (m.writeUnits i us).read a = m.read a := by
  rw [Memory.read_writeUnits, if_neg (by omega)]

theorem outIndex_eq_add (i : Instr) (g k : Nat) : outIndex i g k = outIndex i g 0 + k := rfl

/-- An index that is none of a group's output units lies below or above them (R55). -/
theorem outside_group_of_ne {i : Instr} {g a : Nat} (h : ∀ k < outSize i, a ≠ outIndex i g k) :
    a < outIndex i g 0 ∨ outIndex i g 0 + outSize i ≤ a := by
  by_contra hin
  refine h (a - outIndex i g 0) (by omega) ?_
  rw [outIndex_eq_add]; omega

/-- The output units of group `g` lie below those of `n` groups (R55, R57). -/
theorem outIndex_lt_mul {i : Instr} {g n k : Nat} (hg : g < n) (hk : k < outSize i) : outIndex i g k < outSize i * n :=
  calc outSize i * g + k < outSize i * g + outSize i := Nat.add_lt_add_left hk _
    _ = outSize i * (g + 1) := (Nat.mul_succ _ _).symm
    _ ≤ outSize i * n := Nat.mul_le_mul_left _ hg

/-- A host write of an index that does not exist faults (log 9). -/
theorem hostWrite_of_not_has {s : State} {sp : Space} {i : Nat} (h : sp.has s.params i = false) (v : Nat) :
    hostWrite sp i v s = .fault (.noSuchUnit sp i) := by
  simp [hostWrite, h]

/-- A register that exists reads as no more than its width (R36). -/
theorem regValue_lt {s : State} (h : s.Inv) {r : Nat} (hr : r < 7) : regValue s r < 2 ^ regWidth s.params r := by
  match r, hr with
  | 0, _ => exact s.op.isLt
  | 1, _ => exact h.lenIn_fits
  | 2, _ => exact Nat.one_pos
  | 3, _ => exact s.status.code.isLt
  | 4, _ => exact s.err.code.isLt
  | 5, _ => exact h.errIdx_fits
  | 6, _ => exact h.lenOut_fits

/-- What a host read returns has the width of what it reads, a free value too (R36, R50, log 8). -/
theorem readValue_lt {s : State} (h : s.Inv) {sp : Space} {i : Nat} (hi : sp.has s.params i = true) :
    readValue s sp i < 2 ^ (if sp = .regs then regWidth s.params i else 8) := by
  cases sp with
  | regs =>
    simp only [readValue, if_true]
    split
    · exact Nat.mod_lt _ (Nat.two_pow_pos _)
    · exact regValue_lt h (of_decide_eq_true hi)
  | inBuf =>
    simp only [readValue, reduceCtorEq, if_false]
    split
    · exact Nat.mod_lt _ (Nat.two_pow_pos _)
    · exact (s.inUnit i).isLt
  | outBuf =>
    simp only [readValue, reduceCtorEq, if_false]
    split
    · exact (s.outUnit i).isLt
    · exact Nat.mod_lt _ (Nat.two_pow_pos _)

/-- CORE's step raises no fault from a state that meets the invariant (R57, R193). -/
theorem coreStep_ne_fault {s : State} (h : s.Inv) (hb : s.status = .busy) (f : Fault) : coreStep s ≠ .fault f := by
  obtain ⟨t, ht⟩ := coreStep_next h hb
  rw [ht]; exact nofun

theorem coreTurn_ne_fault {s : State} (h : s.Inv) (f : Fault) : coreTurn s ≠ .fault f := by
  unfold coreTurn
  split
  · next hb => exact coreStep_ne_fault h hb f
  · exact nofun

theorem hostWait_ne_fault {s : State} (h : s.Inv) (f : Fault) : hostWait s ≠ .fault f := by
  unfold hostWait
  split
  · next hb => exact coreStep_ne_fault (setQueue_inv h (.wait :: s.queue) (some (regValue s 3))) hb f
  · exact nofun

/-- While BUSY a poll of WAIT is CORE's step, with the move to come again (R94, log 25). -/
theorem hostWait_of_busy {s : State} (hb : s.status = .busy) :
    hostWait s = coreStep { s with reply := some (regValue s 3), queue := .wait :: s.queue } := by
  simp [hostWait, hb]

/-- A whole operation raises no fault: it is refused while BUSY, and otherwise ends (R193, R225). -/
theorem exec_ne_fault {s : State} (h : s.Inv) (i : Instr) (f : Fault) : exec i s ≠ .fault f := by
  by_cases hb : s.status = .busy
  · rw [exec_of_busy hb]; exact nofun
  · obtain ⟨t, ht, _⟩ := exec_ends h hb i
    rw [ht]; exact nofun

/-- Of the environment's moves only a host access faults, and only by the index it names (R57, log 9). -/
theorem doMove_fault {m : Move} {s : State} {f : Fault} (h : s.Inv) (hf : doMove m s = .fault f) :
    ∃ sp i, f = .noSuchUnit sp i ∧ sp.has s.params i = false ∧ (m = .read sp i ∨ ∃ v, m = .write sp i v) := by
  cases m with
  | read sp i =>
    cases hh : sp.has s.params i with
    | true => cases (hostRead_of_has hh).symm.trans hf
    | false => cases (hostRead_of_not_has hh).symm.trans hf; exact ⟨sp, i, rfl, hh, .inl rfl⟩
  | write sp i v =>
    rcases hostWrite_cases sp i v s with ⟨hh, hw⟩ | ⟨_, _, hw⟩ | ⟨_, _, _, hw⟩ | ⟨_, _, _, hw⟩ <;>
      cases hw.symm.trans hf
    exact ⟨sp, i, rfl, hh, .inr ⟨v, rfl⟩⟩
  | wait => exact absurd hf (hostWait_ne_fault h f)
  | core => exact absurd hf (coreTurn_ne_fault h f)
  | reset => cases hf
  | call w => exact absurd hf (exec_ne_fault h _ f)
  | stmt t => cases hf

/-- `GRP` and `OUT` are as before, or group `GRP` was written to its place and counted (R107, R108, R140, R141). -/
def OutKeptOrGroupStored (s t : State) : Prop :=
  (t.grp = s.grp ∧ t.outBuf = s.outBuf) ∨
  (s.grp < s.ngrp ∧ t.grp = s.grp + 1 ∧
    t.outBuf = s.outBuf.writeUnits (outIndex s.instr s.grp 0) (groupOutput s.instr s.input s.grp))

/-- A step of CORE after which the operation goes on is a group step that stored its group (R102, R132). -/
theorem coreStep_stores {s t : State} (h : s.Inv) (hb : s.status = .busy) (hs : coreStep s = .next t)
    (ht : t.status = .busy) : OutKeptOrGroupStored s t := by
  rw [coreStep_unit] at hs
  rcases coreStep_cases h hb with ⟨hg, hstore, _⟩ | ⟨_, _, k, _, hraise, _⟩ | ⟨_, hfinish⟩
  · cases hstore.symm.trans hs
    exact .inr ⟨hg, trunc_of_lt (by have := h.ngrp_fits; omega), rfl⟩
  · cases hraise.symm.trans hs; cases ht
  · cases hfinish.symm.trans hs; cases ht

/-- While BUSY a host write that answers is of a read-only place, so it changes nothing (R50, R227). -/
theorem hostWrite_next_of_busy {sp : Space} {i v : Nat} {s t : State} (hb : s.status = .busy)
    (hw : hostWrite sp i v s = .next t) : t = s := by
  rcases hostWrite_cases sp i v s with ⟨_, h⟩ | ⟨_, _, h⟩ | ⟨_, _, _, h⟩ | ⟨_, _, hnb, _⟩
  · cases h.symm.trans hw
  · cases h.symm.trans hw; rfl
  · cases h.symm.trans hw
  · exact absurd hb hnb

/-- Of the moves that leave an operation running, those that give CORE a step may store a group, and the host's own
leave `GRP` and `OUT` alone (R50, R58, R60). -/
theorem doMove_stores {m : Move} {s t : State} (h : s.Inv) (hb : s.status = .busy) (hs : doMove m s = .next t)
    (ht : t.status = .busy) : OutKeptOrGroupStored s t := by
  cases m with
  | read sp i =>
    cases hh : sp.has s.params i with
    | true => cases (hostRead_of_has hh).symm.trans hs; exact .inl ⟨rfl, rfl⟩
    | false => cases (hostRead_of_not_has hh).symm.trans hs
  | write sp i v => cases hostWrite_next_of_busy hb hs; exact .inl ⟨rfl, rfl⟩
  | wait =>
    have hinv := setQueue_inv h (.wait :: s.queue) (some (regValue s 3))
    have hstored := coreStep_stores hinv hb ((hostWait_of_busy hb).symm.trans hs) ht
    exact hstored
  | core => exact coreStep_stores h hb ((coreTurn_of_busy hb).symm.trans hs) ht
  | reset => cases hs; cases ht
  | call w => exact absurd hb (not_busy_of_exec hs)
  | stmt st => cases hs; exact .inl ⟨rfl, rfl⟩

/-- The same of a step: with no move pending it is CORE's, and otherwise the oldest move's (R61, R225). -/
theorem step_stores {s t : State} (h : s.Inv) (hb : s.status = .busy) (hs : step s = .next t)
    (ht : t.status = .busy) : OutKeptOrGroupStored s t := by
  cases hq : s.queue with
  | nil =>
    rw [step_of_empty hq, coreTurn_of_busy hb] at hs
    exact coreStep_stores h hb hs ht
  | cons m rest =>
    rw [step_of_cons hq] at hs
    have hstored := doMove_stores (setQueue_inv h rest s.reply) hb hs ht
    exact hstored

end Sys2Proof.Machine

namespace Sys2Proof.Proofs

open Sys2Proof Sys2Proof.Machine

/-! ## The statements of 20_memory.md -/

/-- Settles O27: the operation passed the `InputTooLarge` test, which bounds its input and all its groups' output. -/
theorem groupIndicesInRange : Obligations.GroupIndicesInRange := by
  intro s h hb hg
  obtain ⟨_, hincap, houtcap⟩ := h.params_valid
  obtain ⟨hin, hout⟩ := tooLarge_eq_false.1 (h.busy_fits hb)
  rw [← h.busy_ngrp hb] at hout
  exact ⟨fun _ _ hlt => Nat.lt_of_lt_of_le hlt hin, fun _ hk => outIndex_lt_mul hg hk, hout, hincap, houtcap⟩

/-- Settles O45: CORE raises no fault under the invariant, and a move of the environment only by the index it names. -/
theorem onlyMissingIndicesFault : Obligations.OnlyMissingIndicesFault := by
  intro s f h hf
  cases hq : s.queue with
  | nil => rw [step_of_empty hq] at hf; exact absurd hf (coreTurn_ne_fault h f)
  | cons m rest =>
    rw [step_of_cons hq] at hf
    obtain ⟨sp, i, hname, hmissing, hmove⟩ := doMove_fault (setQueue_inv h rest s.reply) hf
    exact ⟨sp, i, hname, hmissing, by simpa using hmove⟩

/-- Settles O59: a unit lies in the block written or outside it. -/
theorem bufferWriteLaws : Obligations.BufferWriteLaws :=
  fun m i us => ⟨fun _ hk => m.read_writeUnits_add i hk, fun _ ha => m.read_writeUnits_outside ha,
    Memory.writeUnits_wf i us⟩

/-- Settles O60: the one step that goes on and touches `OUT` stores group `GRP`, and it writes the group's units in a
block at the group's place. -/
theorem outWrittenGroupByGroup : Obligations.OutWrittenGroupByGroup := by
  intro s t h hb hs ht
  refine (step_stores h hb hs ht).imp_right ?_
  rintro ⟨hg, hgrp, hout⟩
  have hlen := groupOutput_length s.instr s.input s.grp
  rw [hout]
  refine ⟨hg, hgrp, fun k hk => ?_, fun a ha => ?_⟩
  · rw [outIndex_eq_add]; exact Memory.read_writeUnits_add _ _ (hlen ▸ hk)
  · exact Memory.read_writeUnits_outside _ (hlen ▸ outside_group_of_ne ha)

/-- Settles O53: a read of an index that exists answers with `readValue`, which is no wider than what it reads. -/
theorem readsChangeNothing : Obligations.ReadsChangeNothing := by
  refine ⟨fun s hb => ?_, fun s sp i h hi => ⟨readValue s sp i, ?_, readValue_lt h hi⟩⟩
  · have hvalue : readValue s .regs 3 = 1 := by simp [readValue, regValue, hb, Status.code]
    rw [step_withMove, ← hvalue]
    exact hostRead_of_has (sp := .regs) rfl
  · rw [step_withMove]; exact hostRead_of_has hi

/-- Settles O57: both accesses look whether the index exists before anything else. -/
theorem missingIndicesFault : Obligations.MissingIndicesFault :=
  fun _ _ _ v h => ⟨hostRead_of_not_has h, hostWrite_of_not_has h v⟩

end Sys2Proof.Proofs
end

section
/-! SUPPORT. The facts the statements about the encoding share: the operation a byte selects, the decode table by code,
the accesses of LOADX, and the polls of WAIT (R21, R88, R90, R94). -/

namespace Sys2Proof.Machine

/-- A written value selects by its bit 0, the one bit `OP` has (R23, R36, R90). -/
theorem decodeOp_opBits (v : Nat) : decodeOp (opBits v) = if v % 2 = 0 then .encode else .decode := by
  simp [decodeOp, opBits, BitVec.toNat_eq]

/-- Both operations are legal and come back from their byte (R90). -/
theorem encoding_statement (i : Instr) : Laws.Encoding.Statement i := by
  cases i with
  | encode => exact Laws.Encoding.encode
  | decode => exact Laws.Encoding.decode

/-- The host's table word decodes as its one byte (R90). -/
theorem decodeTableWord_eq (nbits w : Nat) :
    decodeTableWord nbits w = some (decodeWord (BitVec.ofNat 8 (w % 2 ^ nbits))) := rfl

/-- To issue a table word is to make the call of its one byte the next move (log 19). -/
theorem withFetchWord_eq (s : State) (nbits w : Nat) :
    s.withFetchWord nbits w = s.withMove (.call (BitVec.ofNat 8 (w % 2 ^ nbits))) := rfl

/-- The entry of a code of the decode table's range stands in the table (R21, R88). -/
theorem decRom_getElem?_code {c : Byte} (hc : 32 ≤ c.toNat ∧ c.toNat ≤ 127) :
    decRom[c.toNat - 32]? = some (decEntry c) :=
  decRom_getElem?_of_decEntry (by omega) (by omega)

/-- Outside that range a code is not valid (R88). -/
theorem charValid_of_outside {c : Byte} (hc : ¬ (32 ≤ c.toNat ∧ c.toNat ≤ 127)) : charValid c = false := by
  rw [charValid, decEntry, if_neg hc, absent]

/-- A valid code lies in the decode table's range (R88). -/
theorem range_of_charValid {c : Byte} (hv : charValid c = true) : 32 ≤ c.toNat ∧ c.toNat ≤ 127 := by
  by_contra hc
  rw [charValid_of_outside hc] at hv; cases hv

/-- The entries of the decode table that are not valid, by their codes (R87). -/
theorem decRom_invalid_iff : ∀ j < 96, (decRom[j]?).map (·.valid) = some false ↔
    j + 32 ∈ [32, 34, 39, 44, 59, 92, 95, 96, 124, 126, 127] := by
  decide

/-- The writes of units to consecutive indices of `IN` from `k` up, as `LOADX` makes them (R94). -/
def writeMoves (k : Nat) (us : List Byte) : List Move :=
  (us.zipIdx k).map fun x => .write .inBuf x.2 x.1.toNat

theorem loadMoves_eq (us : List Byte) : loadMoves us = writeMoves 0 us ++ [.write .regs 1 us.length] := rfl

theorem writeMoves_cons (k : Nat) (u : Byte) (us : List Byte) :
    writeMoves k (u :: us) = .write .inBuf k u.toNat :: writeMoves (k + 1) us := rfl

/-- Outside BUSY a unit written to an index of `IN` goes there whole (R34). -/
theorem step_write_in {s : State} {k : Nat} {u : Byte} {q : List Move} (hb : s.status ≠ .busy)
    (hk : k < s.params.inCap) :
    step { s with queue := .write .inBuf k u.toNat :: q } =
      .next { s with inBuf := s.inBuf.write k u, queue := q } := by
  refine (hostWrite_of_accepted (s := { s with queue := q }) (sp := .inBuf) (decide_eq_true hk) rfl hb u.toNat).trans ?_
  simp [acceptWrite, writeIn]

/-- Outside BUSY a number that fits `LEN_IN` goes there whole (R24). -/
theorem step_write_lenIn {s : State} {n : Nat} {q : List Move} (hb : s.status ≠ .busy)
    (hn : n < 2 ^ s.params.lenBits) :
    step { s with queue := .write .regs 1 n :: q } = .next { s with lenIn := n, queue := q } := by
  refine (hostWrite_of_accepted (s := { s with queue := q }) (sp := .regs) (i := 1) rfl rfl hb n).trans ?_
  simp [acceptWrite, writeLenIn, trunc_of_lt hn]

/-- The writes of `LOADX` leave the units in `IN` and nothing else changed (R94). -/
theorem run_writeMoves (us : List Byte) (k : Nat) (s : State) (q : List Move) (hb : s.status ≠ .busy)
    (hfit : k + us.length ≤ s.params.inCap) :
    core.run us.length { s with queue := writeMoves k us ++ q } =
      .next { s with inBuf := s.inBuf.writeUnits k us, queue := q } := by
  induction us generalizing k s with
  | nil => rfl
  | cons u us ih =>
    rw [List.length_cons] at hfit
    have hrest : k + 1 + us.length ≤ s.params.inCap := by omega
    rw [writeMoves_cons, List.cons_append, List.length_cons, run_next _ (step_write_in hb (by omega))]
    exact ih (k + 1) { s with inBuf := s.inBuf.write k u } hb hrest

/-- Units written from index 0 with their number in `LEN_IN` are the input (R34). -/
theorem input_of_writeUnits {t : State} {m : Memory} {us : List Byte} (hin : t.inBuf = m.writeUnits 0 us)
    (hlen : t.lenIn = us.length) : t.input = us := by
  apply List.ext_getElem?
  intro k
  rw [input_getElem?, hlen, State.inUnit, hin, Memory.read_writeUnits]
  by_cases hk : k < us.length <;> simp [hk]

/-- A poll that finds CORE not BUSY ends the WAIT with the `STATE` it reads (R94). -/
theorem step_wait_of_not_busy {s : State} {q : List Move} (hb : s.status ≠ .busy) (hq : s.queue = .wait :: q) :
    step s = .next { s with queue := q, reply := some s.status.code.toNat } := by
  rw [step_of_cons hq]; simp [doMove, hostWait, hb, regValue]

/-- A poll that finds CORE BUSY gives it a step, which ends the operation or leaves one group less to do, and comes
again (R94, R225, log 25). -/
theorem step_wait_of_busy {s : State} {q : List Move} (h : s.Inv) (hb : s.status = .busy)
    (hq : s.queue = .wait :: q) :
    ∃ t, step s = .next t ∧ t.Inv ∧ t.queue = .wait :: q ∧
      ((t.status = .done ∨ t.status = .error) ∨ (t.status = .busy ∧ t.ngrp - t.grp < s.ngrp - s.grp)) := by
  obtain ⟨t, ht, hI, hS, hend⟩ :=
    coreStep_progress (setQueue_inv h (.wait :: q) (some (regValue s 3))) hb
  refine ⟨t, ?_, hI, hS.queue, ?_⟩
  · rw [step_of_cons hq]
    exact (hostWait_of_busy (s := { s with queue := q }) hb).trans ht
  · rcases hend with ⟨_, hd, _⟩ | ⟨htb, hn, hg, hlt⟩
    · exact .inl hd
    · simp only at hn hg hlt
      exact .inr ⟨htb, by omega⟩

/-- The WAIT has returned: the moves after it are left, and it read the `STATE` the operation ended in (R94). -/
def WaitReturned (q : List Move) (t : State) : Prop :=
  t.queue = q ∧ ((t.status = .done ∧ t.reply = some 2) ∨ (t.status = .error ∧ t.reply = some 3))

theorem waitReturned_of_ended {s : State} (q : List Move) (hd : s.status = .done ∨ s.status = .error) :
    WaitReturned q { s with queue := q, reply := some s.status.code.toNat } := by
  rcases hd with hs | hs
  · exact ⟨rfl, .inl ⟨hs, by rw [hs]; rfl⟩⟩
  · exact ⟨rfl, .inr ⟨hs, by rw [hs]; rfl⟩⟩

/-- A WAIT returns after a poll for each group left, one for FINISH and the last one, at most (R94, R225, log 25). -/
theorem run_wait_returns {s : State} {q : List Move} (h : s.Inv) (hb : s.status = .busy)
    (hq : s.queue = .wait :: q) :
    ∃ n t, n ≤ s.ngrp - s.grp + 2 ∧ core.run n s = .next t ∧ WaitReturned q t := by
  induction hleft : s.ngrp - s.grp using Nat.strong_induction_on generalizing s with
  | h left ih =>
    obtain ⟨t, ht, hI, htq, hd | ⟨htb, hlt⟩⟩ := step_wait_of_busy h hb hq
    · have hnb : t.status ≠ .busy := by rcases hd with hd | hd <;> rw [hd] <;> decide
      refine ⟨2, _, by omega, ?_, waitReturned_of_ended q hd⟩
      rw [run_next 1 ht, run_next 0 (step_wait_of_not_busy hnb htq), run_zero]
    · obtain ⟨n, u, hn, hu, hret⟩ := ih _ (hleft ▸ hlt) hI htb htq rfl
      exact ⟨n + 1, u, by omega, by rw [run_next n ht, hu], hret⟩

end Sys2Proof.Machine

namespace Sys2Proof.Proofs

open Sys2Proof Sys2Proof.Machine

/-! ## The statements of 30_encoding.md -/

/-- Settles O47: the state with the WAIT in front has the groups left of the state without it. -/
theorem waitReturnsTheEnd : Obligations.WaitReturnsTheEnd := by
  intro s h hb
  obtain ⟨n, t, hn, hrun, hqueue, hend⟩ :=
    run_wait_returns (setQueue_inv h (.wait :: s.queue) s.reply) hb rfl
  exact ⟨n, t, hn, hrun, hqueue, hend⟩

/-- Settles O58: the writes of the units leave them in `IN` from index 0, and their number fits `LEN_IN`. -/
theorem loadxLoadsTheInput : Obligations.LoadxLoadsTheInput := by
  intro s us h hb hfit
  obtain ⟨_, hcap, _⟩ := h.params_valid
  have hlen : us.length < 2 ^ s.params.lenBits := by
    have := Nat.two_pow_pos s.params.lenBits
    omega
  refine ⟨{ s with inBuf := s.inBuf.writeUnits 0 us, lenIn := us.length }, ?_,
    input_of_writeUnits (m := s.inBuf) rfl rfl, rfl⟩
  rw [loadMoves_eq, List.append_assoc, List.singleton_append,
    run_add us.length 1 (run_writeMoves us 0 s _ hb (by omega))]
  exact run_next 0 (step_write_lenIn (s := { s with inBuf := s.inBuf.writeUnits 0 us }) hb hlen)

/-- Settles O1: a byte selects by the one bit it leaves in `OP`. -/
theorem opBitSelectsOperation : Obligations.OpBitSelectsOperation :=
  ⟨fun w => decodeOp_opBits w.toNat, rfl, rfl, rfl, rfl⟩

/-- Settles O2: the encoded byte is one byte, and it decodes to the operation. -/
theorem decodeOfEncode : Obligations.DecodeOfEncode := by
  intro i rest
  obtain ⟨hwf, hop, b, hbyte, _, hdecode⟩ := encoding_statement i
  refine ⟨hwf, ?_, hop⟩
  rw [hbyte, List.singleton_append, decodeInstr, hdecode]

/-- Settles O3: the issue of a table word is that of its byte, and a byte's issue is exec of what it decodes to. -/
theorem stepRunsTheDecodedOperation : Obligations.StepRunsTheDecodedOperation := by
  intro s
  have hcall : ∀ w : Byte, step (s.withMove (.call w)) = exec (decodeWord w) s := fun w => step_withMove s (.call w)
  refine ⟨hcall, fun nbits w i hi => ?_⟩
  rw [decodeTableWord_eq, Option.some.injEq] at hi
  rw [withFetchWord_eq, hcall, hi]

/-- Settles O5, range by range from the entries of the table. -/
theorem encRomContents : Obligations.EncRomContents :=
  ⟨by decide, by decide, by decide, by decide⟩

/-- Settles O7: a code in the table's range has the table's entry, a code outside it is not valid, and the two tables
are inverse to each other. -/
theorem lookupFunctionsInvert : Obligations.LookupFunctionsInvert := by
  refine ⟨fun c => ⟨fun hv => ?_, fun ⟨hlo, hhi, hv⟩ => ?_⟩, fun c hv => ?_, encRom_getElem?_digit, fun d => ?_,
    charOf_of_decEntry_valid, by decide +kernel⟩
  · have hc := range_of_charValid hv
    exact ⟨hc.1, hc.2, by rw [decRom_getElem?_code hc]; exact congrArg some hv⟩
  · rw [decRom_getElem?_code ⟨hlo, hhi⟩] at hv
    exact Option.some.inj hv
  · rw [decRom_getElem?_code (range_of_charValid hv), ← hv]; rfl
  · rw [charValid, digitOf, decEntry_charOf, present]; exact ⟨rfl, rfl⟩

/-- Settles O8: in the table's range the listed codes are those of the entries that are not valid, and every code
outside it is not valid. -/
theorem invalidCodesListed : Obligations.InvalidCodesListed := by
  intro c
  by_cases hc : 32 ≤ c.toNat ∧ c.toNat ≤ 127
  · have hentry := decRom_invalid_iff (c.toNat - 32) (by omega)
    rw [decRom_getElem?_code hc, Nat.sub_add_cancel hc.1, Option.map_some, Option.some.injEq] at hentry
    rw [charValid, hentry, or_iff_right (by omega), or_iff_left (by omega)]
  · have hout : c.toNat < 32 ∨ 128 ≤ c.toNat := by omega
    exact ⟨fun _ => hout.imp_right .inr, fun _ => charValid_of_outside hc⟩

end Sys2Proof.Proofs
end

section
/-! SUPPORT. The facts the statements about ENCODE share: the forms of ENC.RADIX, the length and the characters of the
text, a group of `IN` with its padding, the group step as CORE's step, and FINISH as far as a claim may read it (R100 to
R113, R232). -/

namespace Sys2Proof.Machine

/-- Form (b) of ENC.RADIX: four divisions by 85 in a row are one by its power (R111). -/
theorem radixByDivision_eq (v : Nat) : radixByDivision v = radixDigits v := by
  simp only [radixByDivision, radixDigits, radixDigit, Nat.div_div_eq_div_mul, Nat.reducePow, Nat.reduceSub,
    Nat.reduceMul, Nat.div_one]

/-- Form (c) of ENC.RADIX: the quotient of a remainder is a digit, and of a value below `85^5` so is the first quotient
(R111). -/
theorem radixByRemainder_eq {v : Nat} (h : v < 85 ^ 5) : radixByRemainder v = (radixDigits v).map Fin.val := by
  simp only [radixByRemainder, radixDigits, Five.map, Five.mk.injEq, radixDigit_val, Nat.reducePow, Nat.reduceSub,
    Nat.div_one] at *
  omega

/-- The length of ENCODE's result for `4q + r` bytes (R112). -/
theorem resultLen_encode {n q r : Nat} (hn : n = 4 * q + r) (hr : r ≤ 3) :
    resultLen .encode n = if r = 0 then 5 * q else 5 * q + r + 1 := by
  simp only [resultLen, outSize, groupsOf, padOf, inSize, ceilQuot]
  split <;> omega

/-- No text has one character more than whole groups (R112). -/
theorem resultLen_encode_mod_ne_one (n : Nat) : resultLen .encode n % 5 ≠ 1 := by
  rw [resultLen_encode (Nat.div_add_mod n 4).symm (by omega)]
  split <;> omega

/-- Every other length is that of a text: `q` whole groups, and `r` bytes more for `r + 1` characters more (R112). -/
theorem exists_resultLen_encode {L : Nat} (hL : L % 5 ≠ 1) : ∃ n, resultLen .encode n = L := by
  refine ⟨4 * (L / 5) + (L % 5 - 1), ?_⟩
  rw [resultLen_encode rfl (by omega)]
  split <;> omega

theorem charValid_charOf (d : Digit) : charValid (charOf d) = true := by
  rw [charValid, decEntry_charOf, present]

/-- The five characters of `enc_group` are characters of digits (R101). -/
theorem charValid_of_mem_encGroup {b : ByteGroup} {c : Byte} (hc : c ∈ (encGroup b).toList) : charValid c = true := by
  obtain ⟨k, hk⟩ := List.mem_iff_getElem?.1 hc
  have hlt : k < 5 := (List.getElem?_eq_some_iff.1 hk).1
  rw [encGroup_getElem? b hlt, Option.some.injEq] at hk
  rw [← hk]; exact charValid_charOf _

/-- Group `g` of the padded input, from `IN` (R100, R103). -/
theorem byteGroupAt_input (s : State) (g : Nat) :
    byteGroupAt s.input g =
      ⟨encByte s (4 * g), encByte s (4 * g + 1), encByte s (4 * g + 2), encByte s (4 * g + 3)⟩ := by
  simp only [byteGroupAt, padByteAt_input]

theorem encByte_toNat (s : State) (i : Nat) :
    (encByte s i).toNat = if i < s.lenIn then (s.inUnit i).toNat else 0 := by
  unfold encByte; split <;> rfl

theorem instr_of_op_zero {s : State} (h : s.op = 0#1) : s.instr = .encode := by
  simp [State.instr, decodeOp, h]

/-- With a group of ENCODE left to do CORE's step stores it (R102). -/
theorem coreStep_encode_group {s : State} (h : s.Inv) (hb : s.status = .busy) (hi : s.instr = .encode)
    (hg : s.grp < s.ngrp) :
    coreStep s = .next (storeGroup .encode (encAssemble (byteGroupAt s.input s.grp))
      (encGroup (byteGroupAt s.input s.grp)).toList s) := by
  rw [coreStep_unit]
  rcases coreStep_cases h hb with ⟨_, hstore, _⟩ | ⟨_, hd, _⟩ | ⟨heq, _⟩
  · rw [hi] at hstore ⊢; exact hstore
  · rw [hi] at hd; cases hd
  · omega

/-- FINISH's subtraction does not go below zero (R109, R142). -/
theorem pad_le_need {s : State} (h : s.Inv) (hb : s.status = .busy) : s.pad.toNat ≤ outSize s.instr * s.ngrp := by
  rw [h.busy_pad hb, h.busy_ngrp hb]; exact padOf_le_need _ _

/-- FINISH as far as a claim may read it, with `LEN_OUT` whole (R109, R142, R232). -/
theorem finishOperation_specified {s : State} (h : s.Inv) (hb : s.status = .busy) :
    (finishOperation s.instr s).specified = State.specified { s with
      lenOut := outSize s.instr * s.ngrp - s.pad.toNat, err := .none, errIdx := 0, status := .done } := by
  have hlen : trunc s.params (outSize s.instr * s.ngrp - s.pad.toNat) = outSize s.instr * s.ngrp - s.pad.toNat := by
    rw [finishOperation_lenOut_eq h hb, h.busy_ngrp hb, h.busy_pad hb]; rfl
  rw [finishOperation, hlen]; rfl

/-- A unit below the length of the result is one of a group's (R55, R100). -/
theorem group_lt_of_lt_resultLen {n g k : Nat} (h : 5 * g + k < resultLen .encode n) : g < groupsOf .encode n := by
  simp only [resultLen, outSize] at h; omega

/-- Unit `k` of group `g` of the text is character `k` of the group (R100, R101). -/
theorem encodeBytes_getElem?_group (bs : List Byte) {g k : Nat} (hk : k < 5)
    (h : 5 * g + k < (encodeBytes bs).length) :
    (encodeBytes bs)[5 * g + k]? = (encGroup (byteGroupAt bs g)).toList[k]? := by
  rw [encodeBytes_length] at h
  rw [encodeBytes_getElem? bs g k (group_lt_of_lt_resultLen h) hk h, encGroup_getElem? _ hk]

end Sys2Proof.Machine

namespace Sys2Proof.Proofs

open Sys2Proof Sys2Proof.Machine

/-! ## The statements of 40_encoder.md -/

/-- Settles O34: the reference machine runs from START to the end, each group step leaving one group of the function's
output, and the result is the function's (`exec_ends`). -/
theorem operationComputesItsFunction : Obligations.OperationComputesItsFunction := by
  intro i s h hb
  obtain ⟨t, ht, _, _, _, hr⟩ := exec_ends h hb i
  exact ⟨t, ht, hr⟩

/-- Settles O10: a 32-bit value is below `85^5`, so nothing is left of it after five divisions. -/
theorem radixFormsAgree : Obligations.RadixFormsAgree := by
  intro a
  have hlt : a.toNat < 85 ^ 5 := Nat.lt_trans a.isLt (by decide)
  exact ⟨radixByDivision_eq _, Nat.div_eq_of_lt hlt, radixByRemainder_eq hlt⟩

/-- Settles O16: the length depends on the number of bytes alone, and every number of bytes has its text. -/
theorem encodeLengthsByRemainder : Obligations.EncodeLengthsByRemainder := by
  refine ⟨fun bs q r hn hr => ?_, fun L => ⟨?_, fun hL => ?_⟩⟩
  · rw [encodeBytes_length]; exact resultLen_encode hn hr
  · rintro ⟨bs, rfl⟩
    rw [encodeBytes_length]; exact resultLen_encode_mod_ne_one _
  · obtain ⟨n, hn⟩ := exists_resultLen_encode hL
    exact ⟨List.replicate n padByte, by rw [encodeBytes_length, List.length_replicate, hn]⟩

/-- Settles O18: a unit of the text is one of some group's five characters. -/
theorem encodeTextIsValid : Obligations.EncodeTextIsValid := by
  intro bs c hc
  obtain ⟨g, _, hg⟩ := List.mem_flatMap.1 (List.mem_of_mem_take hc)
  exact charValid_of_mem_encGroup hg

/-- Settles O28: the step stores the group, whose units are written in a block at the group's place. -/
theorem encodeGroupStep : Obligations.EncodeGroupStep := by
  intro s h hb hop hg
  refine ⟨_, coreStep_encode_group h hb (instr_of_op_zero hop) hg, ?_, fun k hk => ?_, fun a ha => ?_, ?_, rfl⟩
  · simp only [storeGroup_acc, encAssemble_toNat, byteGroupAt_input, byteValue, encByte_toNat]
  · rw [storeGroup_acc, encAssemble_toNat, ← encGroup_getElem? _ hk]
    exact Memory.read_writeUnits_add _ _ hk
  · exact Memory.read_writeUnits_outside _ ha
  · exact trunc_of_lt (by have := h.ngrp_fits; omega)

/-- Settles O29: with every group done CORE's step is FINISH, and the pad is no more than the untruncated count. -/
theorem encodeFinish : Obligations.EncodeFinish := by
  intro s h hb hop hg
  have hpad := pad_le_need h hb
  have hspec := finishOperation_specified h hb
  rw [instr_of_op_zero hop] at hpad hspec
  exact ⟨hpad, _, coreStep_of_grp_eq_ngrp hg, (instr_of_op_zero hop).symm ▸ hspec⟩

/-- Settles O35: the operation ends in its function's result, which for an input that fits is the text; a unit of the
text is one of its group's characters. -/
theorem encodeCompletes : Obligations.EncodeCompletes := by
  intro s h hb hin hout
  have hfit : tooLarge s.params .encode s.input.length = false := by
    rw [input_length]; exact tooLarge_eq_false.2 ⟨hin, hout⟩
  obtain ⟨t, ht, hI, _, _, hr⟩ := exec_ends h hb .encode
  rw [opResult, encodeResult, hfit, if_neg Bool.false_ne_true] at hr
  obtain ⟨hdone, herr, hidx, hlen, htext⟩ := done_of_result hr hI
  refine ⟨t, ht, hdone, herr, hidx, ?_, fun g k hk hlt => ?_⟩
  · rw [hlen, encodeBytes_length, input_length]; rfl
  · rw [out_get htext _ hlt, encodeBytes_getElem?_group _ hk (hlen ▸ hlt), byteGroupAt_input]; rfl

end Sys2Proof.Proofs
end

section
/-! SUPPORT. The facts the statements about DECODE share: the forms of DEC.ACCUM, the order of digit groups against
that of their values, the length and the units of the bytes, a trailing character alone in its group, a group of `IN`
with its padding, and what the group step does as CORE's step (R130 to R147). -/

namespace Sys2Proof.Machine

/-- Horner's form of a digit group has the value of the sum of products (R147). -/
theorem horner_eq_digitValue (d : DigitGroup) : d.toList.foldl (fun v x => v * 85 + x.val) 0 = digitValue d := by
  simp only [Five.toList, List.foldl_cons, List.foldl_nil, digitValue, Nat.reducePow]
  omega

/-- Wrapping at every step of Horner's form is wrapping once at its end (R147). -/
theorem foldl_horner_wrapping (ds : List Digit) (v : Nat) :
    ds.foldl (fun a x => a * 85#32 + BitVec.ofNat 32 x.val) (BitVec.ofNat 32 v) =
      BitVec.ofNat 32 (ds.foldl (fun v x => v * 85 + x.val) v) := by
  induction ds generalizing v with
  | nil => rfl
  | cons x ds ih =>
    rw [List.foldl_cons, List.foldl_cons, ← ih, BitVec.ofNat_add, BitVec.ofNat_mul]

/-- Digit groups in digit order are in the order of their values (R53). -/
theorem digitValue_lt_iff (d e : DigitGroup) :
    digitValue d < digitValue e ↔ d.toList.map Fin.val < e.toList.map Fin.val := by
  obtain ⟨d0, d1, d2, d3, d4⟩ := d
  obtain ⟨e0, e1, e2, e3, e4⟩ := e
  simp only [Five.toList, List.map_cons, List.map_nil, List.cons_lt_cons_iff, List.lt_irrefl, and_false, or_false,
    digitValue, Nat.reducePow]
  omega

/-- The greatest 32-bit value, by its digits (R138). -/
theorem digitValue_max32 : digitValue ⟨82, 23, 54, 12, 0⟩ = 2 ^ 32 - 1 := rfl

/-- Byte `k` of a value (R131). -/
theorem valueBytes_getElem? (v : Nat) {k : Nat} (hk : k < 4) : (valueBytes v).toList[k]? = some (valueByte v k) := by
  match k, hk with
  | 0, _ => rfl
  | 1, _ => rfl
  | 2, _ => rfl
  | 3, _ => rfl

/-- The length of DECODE's result for `5q + r` characters (R146). -/
theorem resultLen_decode {n q r : Nat} (hn : n = 5 * q + r) (hr : r ≤ 4) :
    resultLen .decode n = if r ≤ 1 then 4 * q else 4 * q + r - 1 := by
  have hgroups : groupsOf .decode n = if r = 0 then q else q + 1 := by
    simp only [groupsOf, inSize, ceilQuot]; split <;> omega
  have hpad : padOf .decode n = if r = 0 then 0 else 5 - r := by
    simp only [padOf, inSize]; split <;> omega
  simp only [resultLen, outSize, hgroups, hpad]
  split <;> split <;> omega

/-- Characters after position `i` do not change its digit (R133). -/
theorem padDigitAt_append {cs : List Byte} {i : Nat} (h : i < cs.length) (ds : List Byte) :
    padDigitAt (cs ++ ds) i = padDigitAt cs i := by
  rw [padDigitAt, padDigitAt, List.getElem?_append_left h]

/-- Characters after a whole group do not change its digits (R133). -/
theorem digitGroupAt_append {cs : List Byte} {g : Nat} (h : 5 * g + 4 < cs.length) (ds : List Byte) :
    digitGroupAt (cs ++ ds) g = digitGroupAt cs g := by
  have hdigit : ∀ k ≤ 4, padDigitAt (cs ++ ds) (5 * g + k) = padDigitAt cs (5 * g + k) :=
    fun k hk => padDigitAt_append (by omega) ds
  simp only [digitGroupAt, Five.mk.injEq]
  exact ⟨hdigit 0 (by omega), hdigit 1 (by omega), hdigit 2 (by omega), hdigit 3 (by omega), hdigit 4 (by omega)⟩

/-- One character after whole groups starts one more group, and leaves theirs as they are (R130). -/
theorem decodeFull_append_singleton {cs : List Byte} (h : cs.length % 5 = 0) (c : Byte) :
    decodeFull (cs ++ [c]) =
      decodeFull cs ++ (decGroup (digitGroupAt (cs ++ [c]) (groupsOf .decode cs.length))).toList := by
  have hgroups : groupsOf .decode (cs ++ [c]).length = groupsOf .decode cs.length + 1 := by
    simp only [List.length_append, List.length_singleton, groupsOf, inSize, ceilQuot]; omega
  rw [decodeFull, hgroups, List.range_succ, List.flatMap_append, List.flatMap_singleton, decodeFull]
  congr 1
  refine List.flatMap_congr fun g hg => ?_
  have hlt : 5 * g + 4 < cs.length := by
    have := List.mem_range.1 hg
    simp only [groupsOf, inSize, ceilQuot] at this; omega
  rw [digitGroupAt_append hlt]

/-- The bytes of whole groups are not cut, and one character more adds none to them (R143). -/
theorem decodeChars_append_singleton {cs : List Byte} (h : cs.length % 5 = 0) (c : Byte) :
    decodeChars (cs ++ [c]) = decodeChars cs := by
  have hfull : (decodeFull cs).length = resultLen .decode cs.length := by
    refine (fullOutput_length .decode cs).trans ?_
    simp [resultLen, padOf, inSize, h]
  have hlen : resultLen .decode (cs ++ [c]).length = resultLen .decode cs.length := by
    rw [List.length_append, resultLen_decode (q := cs.length / 5) (r := 1) (by simp; omega) (by omega),
      resultLen_decode (q := cs.length / 5) (r := 0) (by omega) (by omega)]
    rfl
  rw [decodeChars, hlen, decodeFull_append_singleton h, ← hfull, List.take_left]
  rw [decodeChars, ← hfull, List.take_length]

/-- What fits and holds no invalid character decodes to its bytes (R130). -/
theorem opResult_decode_of_valid {p : Params} {cs : List Byte} (hfit : tooLarge p .decode cs.length = false)
    (h : ∀ x ∈ cs, charValid x = true) : opResult p .decode cs = .done (decodeChars cs) := by
  have hnone : cs.findIdx? (fun c => !charValid c) = none :=
    List.findIdx?_eq_none_iff.2 fun x hx => by simp [h x hx]
  simp [opResult, decodeResult, hfit, hnone]

/-- What fits raises `InvalidCharacter` at the lowest invalid index (R194). -/
theorem opResult_decode_of_invalid {p : Params} {cs : List Byte} {k : Nat} {c : Byte}
    (hfit : tooLarge p .decode cs.length = false) (hk : cs[k]? = some c) (hc : charValid c = false)
    (hbefore : ∀ j < k, ∀ d, cs[j]? = some d → charValid d = true) :
    opResult p .decode cs = .error .invalidCharacter k := by
  simp [opResult, decodeResult, hfit, findIdx?_invalid hk hc hbefore]

/-- Unit `k` of group `g` of the bytes is byte `k` of the group (R130, R131). -/
theorem decodeChars_getElem?_group (cs : List Byte) {g k : Nat} (hk : k < 4)
    (h : 4 * g + k < (decodeChars cs).length) :
    (decodeChars cs)[4 * g + k]? = (decGroup (digitGroupAt cs g)).toList[k]? := by
  rw [decodeChars_length] at h
  have hg : g < groupsOf .decode cs.length := by
    simp only [resultLen, outSize] at h; omega
  rw [decodeChars, List.getElem?_take, if_pos h]
  exact fullOutput_getElem? .decode cs hg hk

/-- Group `g` of the padded input, from `IN` (R133, R134). -/
theorem digitGroupAt_input (s : State) (g : Nat) :
    digitGroupAt s.input g =
      ⟨decDigit (decChar s (5 * g)), decDigit (decChar s (5 * g + 1)), decDigit (decChar s (5 * g + 2)),
        decDigit (decChar s (5 * g + 3)), decDigit (decChar s (5 * g + 4))⟩ := by
  simp only [digitGroupAt, padDigitAt_input]

theorem decDigit_decChar (s : State) (i : Nat) :
    decDigit (decChar s i) = if i < s.lenIn then digitOf (s.inUnit i) else 84 := by
  unfold decChar; split <;> rfl

theorem decDigit_decChar_val (s : State) (i : Nat) :
    (decDigit (decChar s i)).val = if i < s.lenIn then (digitOf (s.inUnit i)).val else 84 := by
  rw [decDigit_decChar]; split <;> rfl

/-- Every character of the input is valid when every unit of `IN` below `LEN_IN` is (R34). -/
theorem charValid_of_mem_input {s : State} (h : ∀ k < s.lenIn, charValid (s.inUnit k) = true) :
    ∀ x ∈ s.input, charValid x = true := by
  intro x hx
  obtain ⟨k, hk, rfl⟩ := List.mem_map.1 hx
  exact h k (List.mem_range.1 hk)

theorem instr_of_op_one {s : State} (h : s.op = 1#1) : s.instr = .decode := by
  simp [State.instr, decodeOp, h]

/-- With a group of valid characters of DECODE left to do CORE's step stores it (R132, R137 to R141). -/
theorem coreStep_decode_group {s : State} (h : s.Inv) (hb : s.status = .busy) (hi : s.instr = .decode)
    (hg : s.grp < s.ngrp)
    (hv : ∀ k < 5, 5 * s.grp + k < s.lenIn → charValid (s.inUnit (5 * s.grp + k)) = true) :
    coreStep s = .next (storeGroup .decode (decAccum (digitGroupAt s.input s.grp))
      (decGroup (digitGroupAt s.input s.grp)).toList s) := by
  rw [coreStep_unit]
  rcases coreStep_cases h hb with ⟨_, hstore, _⟩ | ⟨_, _, k, hk, _, hlt, hbad, _⟩ | ⟨heq, _⟩
  · rw [hi] at hstore ⊢; exact hstore
  · rw [hv k hk hlt] at hbad; cases hbad
  · omega

/-- With an invalid character in the group CORE's step raises `InvalidCharacter` at the lowest (R135). -/
theorem coreStep_decode_invalid {s : State} {k : Nat} (h : s.Inv) (hb : s.status = .busy) (hi : s.instr = .decode)
    (hg : s.grp < s.ngrp) (hk : k < 5) (hlt : 5 * s.grp + k < s.lenIn)
    (hbad : charValid (s.inUnit (5 * s.grp + k)) = false)
    (hbefore : ∀ j < k, charValid (s.inUnit (5 * s.grp + j)) = true) :
    coreStep s = .next (raiseError .invalidCharacter (5 * s.grp + k) s) := by
  rw [coreStep_unit]
  rcases coreStep_cases h hb with ⟨_, _, hv⟩ | ⟨_, _, k', _, hraise, _, hbad', hbefore'⟩ | ⟨heq, _⟩
  · rw [hv hi k hk hlt] at hbad; cases hbad
  · rcases Nat.lt_trichotomy k k' with hkk | rfl | hkk
    · rw [hbefore' k hkk] at hbad; cases hbad
    · exact hraise
    · rw [hbefore k' hkk] at hbad'; cases hbad'
  · omega

end Sys2Proof.Machine

namespace Sys2Proof.Proofs

open Sys2Proof Sys2Proof.Machine

/-! ## The statements of 41_decoder.md -/

/-- Settles O11: Horner's form has the value of the sum of products, and it may wrap at every step or at the end. -/
theorem accumFormsAgree : Obligations.AccumFormsAgree := by
  intro d
  have hhorner : accumHorner d = decAccum d := by rw [accumHorner, horner_eq_digitValue, decAccum]
  exact ⟨hhorner, (foldl_horner_wrapping d.toList 0).trans hhorner⟩

/-- Settles O12: 82 23 54 12 0 are the digits of `2^32 - 1`, and digit order is the order of the values. -/
theorem groupValueWrapsSilently : Obligations.GroupValueWrapsSilently := by
  intro d
  refine ⟨decSplit_decAccum d, decAccum_toNat d, Nat.le_of_lt_succ (digitValue_lt d), ?_, fun h => ?_⟩
  · have horder := digitValue_lt_iff ⟨82, 23, 54, 12, 0⟩ d
    rw [digitValue_max32] at horder
    exact horder
  · have h1 := d.x1.isLt; have h2 := d.x2.isLt; have h3 := d.x3.isLt; have h4 := d.x4.isLt
    simp only [digitValue] at h; omega

/-- Settles O17: the length depends on the number of characters alone. -/
theorem decodeLengthsByRemainder : Obligations.DecodeLengthsByRemainder := by
  intro cs q r hn hr
  rw [decodeChars_length]; exact resultLen_decode hn hr

/-- Settles O19: a valid trailing character adds no byte, and an invalid one is the first invalid character. -/
theorem loneTrailingCharacterDropped : Obligations.LoneTrailingCharacterDropped := by
  intro p cs c hlen hfit hv
  have hfit' : tooLarge p .decode (cs ++ [c]).length = false := by rwa [List.length_append]
  cases hc : charValid c with
  | true =>
    rw [if_pos rfl, ← decodeChars_append_singleton hlen c]
    exact opResult_decode_of_valid hfit' (List.forall_mem_append.2 ⟨hv, List.forall_mem_singleton.2 hc⟩)
  | false =>
    rw [if_neg Bool.false_ne_true]
    refine opResult_decode_of_invalid hfit' List.getElem?_concat_length hc fun j hj d hd => ?_
    rw [List.getElem?_append_left hj] at hd
    exact hv d (List.mem_of_getElem? hd)

/-- Settles O30: the step stores the group, whose bytes are written in a block at the group's place. -/
theorem decodeGroupStep : Obligations.DecodeGroupStep := by
  intro s h hb hop hg hv
  refine ⟨_, coreStep_decode_group h hb (instr_of_op_one hop) hg hv, ?_, fun k hk => ?_, fun a ha => ?_, ?_, rfl⟩
  · simp only [storeGroup_acc, decAccum_toNat, digitGroupAt_input, digitValue, decDigit_decChar_val]
  · refine (Memory.read_writeUnits_add _ _ hk).trans ?_
    rw [storeGroup_acc, ← decSplit_decAccum, decSplit_eq]
    exact valueBytes_getElem? _ hk
  · exact Memory.read_writeUnits_outside _ ha
  · exact trunc_of_lt (by have := h.ngrp_fits; omega)

/-- Settles O31: the step raises the error at that position, whose index is one of `IN` and so fits `ERR_IDX`. -/
theorem decodeGroupRaisesInvalidCharacter : Obligations.DecodeGroupRaisesInvalidCharacter := by
  intro s k h hb hop hg hk hlt hbad hbefore
  have hidx : trunc s.params (5 * s.grp + k) = 5 * s.grp + k := trunc_of_lt (Nat.lt_trans hlt h.lenIn_fits)
  exact ⟨_, coreStep_decode_invalid h hb (instr_of_op_one hop) hg hk hlt hbad hbefore, rfl, hidx, rfl, rfl, rfl, rfl,
    rfl, rfl, rfl, rfl, rfl, rfl⟩

/-- Settles O32: with every group done CORE's step is FINISH, and the pad is no more than the untruncated count. -/
theorem decodeFinish : Obligations.DecodeFinish := by
  intro s h hb hop hg
  have hpad := pad_le_need h hb
  have hspec := finishOperation_specified h hb
  rw [instr_of_op_one hop] at hpad hspec
  exact ⟨hpad, _, coreStep_of_grp_eq_ngrp hg, (instr_of_op_one hop).symm ▸ hspec⟩

/-- Settles O36: the operation ends in its function's result, which for valid characters that fit is the bytes; a unit
of the bytes is one of its group's. -/
theorem decodeCompletes : Obligations.DecodeCompletes := by
  intro s h hb hin hout hv
  have hfit : tooLarge s.params .decode s.input.length = false := by
    rw [input_length]; exact tooLarge_eq_false.2 ⟨hin, hout⟩
  obtain ⟨t, ht, hI, _, _, hr⟩ := exec_ends h hb .decode
  rw [opResult_decode_of_valid hfit (charValid_of_mem_input hv)] at hr
  obtain ⟨hdone, herr, hidx, hlen, hbytes⟩ := done_of_result hr hI
  refine ⟨t, ht, hdone, herr, hidx, ?_, fun g k hk hlt => ?_⟩
  · rw [hlen, decodeChars_length, input_length]; rfl
  · rw [out_get hbytes _ hlt, decodeChars_getElem?_group _ hk (hlen ▸ hlt), digitGroupAt_input]
    simp only [decDigit_decChar]

/-- Settles O20, by computing both texts of each pair. -/
theorem decodeIsNotInjective : Obligations.DecodeIsNotInjective :=
  ⟨by decide, by decide, by decide, by decide, by decide⟩

end Sys2Proof.Proofs
end

section
/-! SUPPORT. The facts the statements about the codec laws share: a full and a partial group through `enc_group` and
`dec_group`, DECODE of ENCODE as a function of the bytes, and the two lengths in a row (R170 to R174, R181). -/

namespace Sys2Proof.Machine

@[simp] theorem digitOf_charOf (d : Digit) : digitOf (charOf d) = d := by
  rw [digitOf, decEntry_charOf, present]

/-- The digits of `enc_group`'s characters are those of the group's value (R101). -/
theorem encGroup_map_digitOf (b : ByteGroup) : (encGroup b).map digitOf = radixDigits (byteValue b) := by
  rw [encGroup]
  generalize radixDigits (byteValue b) = d
  simp [Five.map]

/-- `dec_group` of the digits of a group's value is the group (R171). -/
theorem decGroup_radixDigits (b : ByteGroup) : decGroup (radixDigits (byteValue b)) = b := by
  have hlt : byteValue b < 85 ^ 5 := Nat.lt_trans (byteValue_lt b) (by decide)
  rw [decGroup, digitValue_radixDigits hlt, valueBytes_byteValue]

/-- The length of DECODE's result on ENCODE's text is that of the bytes (R173). -/
theorem resultLen_decode_encode (n : Nat) : resultLen .decode (resultLen .encode n) = n := by
  have hn : n = 4 * (n / 4) + n % 4 := (Nat.div_add_mod n 4).symm
  rw [resultLen_encode hn (by omega)]
  by_cases hr : n % 4 = 0
  · rw [if_pos hr, resultLen_decode (Nat.add_zero _).symm (by omega), if_pos (by omega)]
    omega
  · rw [if_neg hr, resultLen_decode (q := n / 4) (r := n % 4 + 1) (by omega) (by omega), if_neg (by omega)]
    omega

/-- With `m` bytes of a group present its first `m + 1` characters are in the text (R112, R172). -/
theorem lt_resultLen_encode_iff {n g m k : Nat} (hm : m = min 4 (n - 4 * g)) (hg : 4 * g < n) (hk : k < 5) :
    5 * g + k < resultLen .encode n ↔ k < m + 1 := by
  rw [resultLen_encode (Nat.div_add_mod n 4).symm (by omega)]
  split <;> omega

/-- A group with `m` bytes present, read back from the text: its first `m + 1` digits, then pad digits (R133, R172). -/
theorem digitGroupAt_encodeBytes (bs : List Byte) {g m : Nat} (hm : m = min 4 (bs.length - 4 * g))
    (hg : 4 * g < bs.length) :
    digitGroupAt (encodeBytes bs) g =
      ⟨radixDigit (byteValue (byteGroupAt bs g)) 0, radixDigit (byteValue (byteGroupAt bs g)) 1,
        if 2 < m + 1 then radixDigit (byteValue (byteGroupAt bs g)) 2 else 84,
        if 3 < m + 1 then radixDigit (byteValue (byteGroupAt bs g)) 3 else 84,
        if 4 < m + 1 then radixDigit (byteValue (byteGroupAt bs g)) 4 else 84⟩ := by
  have hgroup : g < groupsOf .encode bs.length := by simp only [groupsOf, inSize, ceilQuot]; omega
  have hdigit : ∀ k < 5, padDigitAt (encodeBytes bs) (5 * g + k) =
      if k < m + 1 then radixDigit (byteValue (byteGroupAt bs g)) k else 84 := fun k hk => by
    rw [padDigitAt_encode bs g k hgroup hk]
    simp only [lt_resultLen_encode_iff hm hg hk]
  simp only [digitGroupAt, Five.mk.injEq]
  refine ⟨(hdigit 0 (by omega)).trans (if_pos (by omega)), (hdigit 1 (by omega)).trans (if_pos (by omega)),
    hdigit 2 (by omega), hdigit 3 (by omega), hdigit 4 (by omega)⟩

/-- At and beyond the length a byte of the padded input is 0 (R100). -/
theorem padByteAt_toNat_of_le {bs : List Byte} {i : Nat} (h : bs.length ≤ i) : (padByteAt bs i).toNat = 0 := by
  simp [padByteAt, padByte, h]

/-- Byte `k` of group `g` of the padded input, where it is present (R55, R100). -/
theorem byteGroupAt_getElem? (bs : List Byte) {g k : Nat} (hk : k < 4) (h : 4 * g + k < bs.length) :
    (byteGroupAt bs g).toList[k]? = bs[4 * g + k]? := by
  have hunit : (byteGroupAt bs g).toList[k]? = some (padByteAt bs (4 * g + k)) := by
    match k, hk with
    | 0, _ => rfl
    | 1, _ => rfl
    | 2, _ => rfl
    | 3, _ => rfl
  rw [hunit, padByteAt, List.getD_eq_getElem?_getD, List.getElem?_eq_getElem h, Option.getD_some]

/-- DECODE's bytes of ENCODE's text are the bytes encoded (R170): each is one of a group's present bytes, and a group
comes back as far as it is present. -/
theorem decodeChars_encodeBytes (bs : List Byte) : decodeChars (encodeBytes bs) = bs := by
  have hlen : (decodeChars (encodeBytes bs)).length = bs.length := by
    rw [decodeChars_length, encodeBytes_length, resultLen_decode_encode]
  apply List.ext_getElem?
  intro i
  by_cases hi : i < bs.length
  · obtain ⟨g, k, hk, rfl⟩ : ∃ g k, k < 4 ∧ i = 4 * g + k := ⟨i / 4, i % 4, by omega, by omega⟩
    have hpad : ∀ j, min 4 (bs.length - 4 * g) ≤ j → j < 4 → (padByteAt bs (4 * g + j)).toNat = 0 :=
      fun j hj hj4 => padByteAt_toNat_of_le (by omega)
    rw [decodeChars_getElem?_group _ hk (hlen ▸ hi), digitGroupAt_encodeBytes bs rfl (by omega),
      partial_group (byteGroupAt bs g) (min 4 (bs.length - 4 * g)) (by omega) (by omega)
        (fun h => hpad 1 h (by omega)) (fun h => hpad 2 h (by omega)) (fun h => hpad 3 h (by omega)) k (by omega),
      byteGroupAt_getElem? bs hk hi]
  · rw [List.getElem?_eq_none (by omega), List.getElem?_eq_none (by omega)]

/-- An ENCODE that fits ends in the text (R100). -/
theorem opResult_encode_of_fits {p : Params} {bs : List Byte} (hfit : tooLarge p .encode bs.length = false) :
    opResult p .encode bs = .done (encodeBytes bs) := by
  rw [opResult, encodeResult, hfit, if_neg Bool.false_ne_true]

/-- A DECODE that fits, of ENCODE's text, ends in the bytes (R113, R170). -/
theorem opResult_decode_encodeBytes {p : Params} {bs : List Byte}
    (hfit : tooLarge p .decode (encodeBytes bs).length = false) :
    opResult p .decode (encodeBytes bs) = .done bs := by
  rw [opResult_decode_of_valid hfit (Proofs.encodeTextIsValid bs), decodeChars_encodeBytes]

/-- A text that comes back whole has as many groups as the bytes (R172). -/
theorem groupsOf_decode_encode (n : Nat) : groupsOf .decode (resultLen .encode n) = groupsOf .encode n := by
  rw [resultLen_encode (Nat.div_add_mod n 4).symm (by omega)]
  simp only [groupsOf, inSize, ceilQuot]
  split <;> omega

theorem le_resultLen_encode (n : Nat) : n ≤ resultLen .encode n := by
  rw [resultLen_encode (Nat.div_add_mod n 4).symm (by omega)]
  split <;> omega

/-- A round trip fits when `OUT` has room for the untruncated text and `IN` for the text (R181): the bytes are
no longer than the text, and whole groups of bytes no longer than whole groups of characters. -/
theorem roundTrip_fits_iff (p : Params) (n : Nat) :
    (tooLarge p .encode n = false ∧ tooLarge p .decode (resultLen .encode n) = false) ↔
      5 * ceilQuot n 4 ≤ p.outCap ∧ resultLen .encode n ≤ p.inCap := by
  have hbytes := le_resultLen_encode n
  rw [tooLarge_eq_false, tooLarge_eq_false, groupsOf_decode_encode]
  simp only [groupsOf, inSize, outSize]
  omega

/-- The first digit of a 32-bit value (R176). -/
theorem radixDigit_zero_le {v : Nat} (h : v < 2 ^ 32) : (radixDigit v 0).val ≤ 82 := by
  rw [radixDigit_val]; omega

end Sys2Proof.Machine

namespace Sys2Proof.Proofs

open Sys2Proof Sys2Proof.Machine

/-! ## The statements of 42_codec_laws.md -/

/-- Settles O14: the text is valid and its bytes are the bytes encoded. The converse fails for the valid text "nc",
whose byte encodes to "nb". -/
theorem decodeOfEncodeIsIdentity : Obligations.DecodeOfEncodeIsIdentity := by
  refine ⟨fun p bs hfit => ⟨encodeBytes bs, opResult_encode_of_fits hfit, opResult_decode_encodeBytes⟩,
    .tiny, [0x6E#8, 0x63#8], decodeChars [0x6E#8, 0x63#8], opResult_decode_of_valid rfl (by decide), rfl, ?_⟩
  obtain ⟨_, _, _, _, hnc⟩ := decodeIsNotInjective
  rw [opResult_encode_of_fits rfl, hnc]
  decide

/-- Settles O9: the two conversions between a value and its digits are inverse to each other. -/
theorem radixDigitsExactAndUnique : Obligations.RadixDigitsExactAndUnique := by
  refine fun v hv => ⟨digitValue_radixDigits hv, fun d hd => ?_, radixDigit_zero_le⟩
  rw [← hd, radixDigits_digitValue]

/-- Settles O13: the characters' digits are those of the group's value, whose bytes are the group. -/
theorem fullGroupRoundTrip : Obligations.FullGroupRoundTrip := by
  refine fun b => ⟨?_, fun c => charValid_of_mem_encGroup⟩
  rw [encGroup_map_digitOf, decGroup_radixDigits]

/-- Settles O15: each length depends on the number of units alone, and the bytes come back whole. -/
theorem lengthRelations : Obligations.LengthRelations :=
  ⟨encodeBytes_length, decodeChars_length, fun bs => congrArg List.length (decodeChars_encodeBytes bs)⟩

/-- Settles O21: the general conditions are `tooLarge_eq_false`, and each named configuration is linear
arithmetic on them. -/
theorem namedConfigurationLimits : Obligations.NamedConfigurationLimits := by
  refine ⟨fun p n => tooLarge_eq_false, fun p n => tooLarge_eq_false, ?_, ?_, ?_, ?_, ?_, ?_, ?_, ?_, ?_⟩ <;> intro n
  case refine_1 | refine_2 | refine_3 | refine_4 | refine_5 | refine_6 =>
    rw [tooLarge_eq_false]
    simp only [Params.ref, Params.tiny, Params.skew, groupsOf, inSize, outSize, ceilQuot]
    omega
  case refine_7 | refine_8 | refine_9 =>
    rw [roundTrip_fits_iff, resultLen_encode (Nat.div_add_mod n 4).symm (by omega)]
    simp only [Params.ref, Params.tiny, Params.skew, ceilQuot]
    split <;> omega

end Sys2Proof.Proofs
end

section
/-! SUPPORT. The facts the statements about a program of ENCODE, COPY and DECODE share: runs in a row, a statement taken
up, an operation issued and waited for, the accesses of COPY and of EXPECTX, an invalid character, and no input (R94,
R95, R170, R174, R182). -/

namespace Sys2Proof.Machine

/-- The machine comes from one state to the other in some number of steps. -/
def Reaches (s t : State) : Prop := ∃ n, core.run n s = .next t

theorem Reaches.refl (s : State) : Reaches s s := ⟨0, rfl⟩

theorem Reaches.of_run {n : Nat} {s t : State} (h : core.run n s = .next t) : Reaches s t := ⟨n, h⟩

theorem Reaches.of_step {s t : State} (h : step s = .next t) : Reaches s t := ⟨1, run_next 0 h⟩

theorem Reaches.trans {s t u : State} : Reaches s t → Reaches t u → Reaches s u
  | ⟨m, hm⟩, ⟨n, hn⟩ => ⟨m + n, (run_add m n hm).trans hn⟩

/-- A run of one step more makes a step, and answers as the rest of the run does. -/
theorem step_of_run {n : Nat} {s t : State} (h : core.run (n + 1) s = .next t) :
    ∃ u, step s = .next u ∧ core.run n u = .next t := by
  have h' := (Host.Core.run.eq_2 core s n).symm.trans h
  cases hs : core.step s with
  | next u => rw [hs] at h'; exact ⟨u, hs, h'⟩
  | fault f => rw [hs] at h'; cases h'
  | refused f => rw [hs] at h'; cases h'

/-- A run keeps the invariant, as each of its steps does. -/
theorem run_inv {n : Nat} {s t : State} (h : s.Inv) (hr : core.run n s = .next t) : t.Inv := by
  induction n generalizing s with
  | zero => cases hr; exact h
  | succ n ih =>
    obtain ⟨u, hs, hu⟩ := step_of_run hr
    exact ih (Proofs.stepKeepsInvariant s u h hs) hu

/-! ### single moves -/

/-- A host read of an index that exists, as a step (R58). -/
theorem step_read {s : State} {sp : Space} {i : Nat} {q : List Move} (h : sp.has s.params i = true) :
    step { s with queue := .read sp i :: q } = .next { s with queue := q, reply := some (readValue s sp i) } :=
  hostRead_of_has (s := { s with queue := q }) h

/-- A statement that expects nothing else than it reads, as a step: its accesses come next (R94). -/
theorem step_stmt_of_met {s : State} {x : Stmt} {q : List Move} (hq : s.queue = .stmt x :: q)
    (hmet : stmtMet { s with queue := q } x = true) :
    step s = .next { s with queue := stmtMoves { s with queue := q } x ++ q } := by
  rw [step_of_cons hq]; simp [doMove, takeUpStmt, hmet]

/-- Outside BUSY a write of `OP`, as a step (R23). -/
theorem step_write_op {s : State} {v : Nat} {q : List Move} (hb : s.status ≠ .busy) :
    step { s with queue := .write .regs 0 v :: q } = .next { s with op := opBits v, queue := q } :=
  hostWrite_of_accepted (s := { s with queue := q }) (sp := .regs) (i := 0) rfl rfl hb v

/-- Outside BUSY a write of `START`, as a step (R25, R224). -/
theorem step_write_start {s : State} {v : Nat} {q : List Move} (hb : s.status ≠ .busy) :
    step { s with queue := .write .regs 2 v :: q } = .next (startOperation s.instr { s with queue := q }) :=
  hostWrite_of_accepted (s := { s with queue := q }) (sp := .regs) (i := 2) rfl rfl hb v

/-! ### an operation from its issue to the end of the WAIT -/

/-- The operation in progress is to end in this result, or it has ended in it (R100, R130). -/
def Due (r : Result) (s : State) : Prop :=
  (s.status = .busy ∧ opResult s.params s.instr s.input = r) ∨
  ((s.status = .done ∨ s.status = .error) ∧ s.result = some r)

/-- START makes the result of the operation's function due (R192, R224). -/
theorem due_startOperation (s : State) : Due (opResult s.params s.instr s.input) (startOperation s.instr s) := by
  cases hf : tooLarge s.params s.instr s.lenIn with
  | true =>
    rw [startOperation_of_tooLarge hf, opResult_of_tooLarge (by rwa [input_length])]
    exact .inr ⟨.inr rfl, by simp [State.result, trunc]⟩
  | false =>
    rw [startOperation_of_fits hf]
    exact .inl ⟨rfl, rfl⟩

/-- What `t` has of the host's is `q` left to do and some reply; of the operands it has those of `s`. -/
abbrev SameOperandsLeft (s : State) (q : List Move) (t : State) : Prop :=
  SameOperands { s with queue := q, reply := t.reply } t

theorem SameOperands.left {s t u : State} {q : List Move} (a : SameOperands s t) (b : SameOperandsLeft t q u) :
    SameOperandsLeft s q u :=
  ⟨b.params.trans a.params, b.op.trans a.op, b.lenIn.trans a.lenIn, b.inBuf.trans a.inBuf, b.queue, rfl,
    b.wrong.trans a.wrong, b.epoch.trans a.epoch⟩

/-- The operation on the operands of `s` has ended in `t` with this result, and the moves `q` are left to do. -/
structure Ended (r : Result) (s : State) (q : List Move) (t : State) : Prop where
  inv : t.Inv
  same : SameOperandsLeft s q t
  status : t.status = .done ∨ t.status = .error
  result : t.result = some r

/-- A WAIT with the operation ended returns at the first poll (R94). -/
theorem reaches_wait_of_ended {r : Result} {s : State} {q : List Move} (h : s.Inv)
    (hd : s.status = .done ∨ s.status = .error) (hr : s.result = some r) (hq : s.queue = .wait :: q) :
    ∃ t, Reaches s t ∧ Ended r s q t := by
  have hb : s.status ≠ .busy := by rcases hd with hd | hd <;> rw [hd] <;> decide
  exact ⟨_, .of_step (step_wait_of_not_busy hb hq), setQueue_inv h _ _,
    ⟨rfl, rfl, rfl, rfl, rfl, rfl, rfl, rfl⟩, hd, hr⟩

/-- A WAIT returns with the result that is due: each poll that finds CORE BUSY leaves one group less to do (R94, R225,
log 25). -/
theorem reaches_wait {r : Result} {s : State} {q : List Move} (h : s.Inv) (hdue : Due r s)
    (hq : s.queue = .wait :: q) : ∃ t, Reaches s t ∧ Ended r s q t := by
  induction hleft : s.ngrp - s.grp using Nat.strong_induction_on generalizing s with
  | h left ih =>
    rcases hdue with ⟨hb, rfl⟩ | ⟨hd, hr⟩
    · obtain ⟨t, ht, hI, hS, hend⟩ :=
        coreStep_progress (setQueue_inv h (.wait :: q) (some (regValue s 3))) hb
      have hstep : step s = .next t := by
        rw [step_of_cons hq]
        exact (hostWait_of_busy (s := { s with queue := q }) hb).trans ht
      have hrest : ∃ u, Reaches t u ∧ Ended (opResult s.params s.instr s.input) t q u := by
        rcases hend with ⟨_, hd, hr⟩ | ⟨htb, hn, hg, hlt⟩
        · exact reaches_wait_of_ended hI hd hr hS.queue
        · simp only at hn hg hlt
          exact ih _ (by omega) hI (.inl ⟨htb, hS.opResult_eq⟩) hS.queue rfl
      obtain ⟨u, hu, hE⟩ := hrest
      exact ⟨u, (Reaches.of_step hstep).trans hu, hE.inv, hS.left hE.same, hE.status, hE.result⟩
    · exact reaches_wait_of_ended h hd hr hq

/-- The statement that issues an operation (R94). -/
def issueStmt : Instr → Stmt
  | .encode => .encode
  | .decode => .decode

theorem stmtMoves_issueStmt (s : State) (i : Instr) :
    stmtMoves s (issueStmt i) = [.write .regs 0 (opOf i).toNat, .write .regs 2 1] := by
  cases i <;> rfl

theorem stmtMet_issueStmt (s : State) (i : Instr) : stmtMet s (issueStmt i) = true := by
  cases i <;> rfl

/-- The issue of an operation by its statement is START of it with `OP` written (R94, R224). -/
theorem reaches_issue {s : State} {i : Instr} {q : List Move} (hb : s.status ≠ .busy)
    (hq : s.queue = .stmt (issueStmt i) :: q) :
    Reaches s (startOperation i { s with op := opOf i, queue := q }) := by
  have htaken := step_stmt_of_met hq (stmtMet_issueStmt _ i)
  have hop := step_write_op (s := s) (v := (opOf i).toNat) (q := .write .regs 2 1 :: q) hb
  have hstart := step_write_start (s := { s with op := opOf i }) (v := 1) (q := q) hb
  rw [stmtMoves_issueStmt] at htaken
  rw [show opBits (opOf i).toNat = opOf i by simp [opBits]] at hop
  rw [setOp_instr] at hstart
  exact (Reaches.of_step htaken).trans ((Reaches.of_step hop).trans (.of_step hstart))

/-- From START a WAIT returns with the result of the operation's function (R94, R100, R130). -/
theorem reaches_start_wait {s : State} (h : s.Inv) (q : List Move) :
    ∃ t, Reaches (startOperation s.instr { s with queue := .stmt .wait :: q }) t ∧
      Ended (opResult s.params s.instr s.input) s q t := by
  have hI := startOperation_inv (setQueue_inv h (.stmt .wait :: q) s.reply)
  have hdue := due_startOperation { s with queue := .stmt .wait :: q }
  have hsame := startOperation_same s.instr { s with queue := .stmt .wait :: q }
  have htaken := step_stmt_of_met hsame.queue rfl
  obtain ⟨t, ht, hE⟩ := reaches_wait (setQueue_inv hI (.wait :: q) _) hdue rfl
  exact ⟨t, (Reaches.of_step htaken).trans ht, hE.inv, hsame.left hE.same, hE.status, hE.result⟩

/-- An operation issued outside BUSY and waited for ends in its function's result (R94, R95, R100, R130). -/
theorem reaches_issue_wait {s : State} {i : Instr} {q : List Move} (h : s.Inv) (hb : s.status ≠ .busy)
    (hq : s.queue = .stmt (issueStmt i) :: .stmt .wait :: q) :
    ∃ t, Reaches s t ∧ Ended (opResult s.params i s.input) { s with op := opOf i } q t := by
  have hwait := reaches_start_wait (setOp_inv h hb (opOf i)) q
  rw [setOp_instr] at hwait
  obtain ⟨t, ht, hE⟩ := hwait
  exact ⟨t, (reaches_issue hb hq).trans ht, hE⟩

/-- A whole operation issued outside BUSY ends so too, with the moves pending left (R231). -/
theorem exec_ended {s : State} (h : s.Inv) (hb : s.status ≠ .busy) (i : Instr) :
    ∃ t, exec i s = .next t ∧ Ended (opResult s.params i s.input) { s with op := opOf i } s.queue t := by
  obtain ⟨t, ht, hI, hS, hd, hr⟩ := exec_ends h hb i
  exact ⟨t, ht, hI, ⟨hS.params, hS.op, hS.lenIn, hS.inBuf, hS.queue, rfl, hS.wrong, hS.epoch⟩, hd, hr⟩

/-! ### COPY and EXPECTX -/

/-- Units written one after the other: the last one is one more write (R51). -/
theorem Memory.writeUnits_concat (m : Memory) (i : Nat) (us : List Byte) (u : Byte) :
    m.writeUnits i (us ++ [u]) = (m.writeUnits i us).write (i + us.length) u := by
  induction us generalizing m i with
  | nil => rfl
  | cons v us ih =>
    simp only [List.cons_append, Memory.writeUnits, ih, List.length_cons]
    rw [show i + 1 + us.length = i + (us.length + 1) by omega]

/-- COPY's accesses for the first `n` units of the result: a read of each and a write of what was read (R94). -/
def copyUnits (s : State) (n : Nat) : List Move :=
  (List.range n).flatMap fun i => [.read .outBuf i, .write .inBuf i (readValue s .outBuf i)]

theorem copyUnits_succ (s : State) (n : Nat) :
    copyUnits s (n + 1) = copyUnits s n ++ [.read .outBuf n, .write .inBuf n (readValue s .outBuf n)] := by
  simp [copyUnits, List.range_succ]

theorem copyUnits_length (s : State) (n : Nat) : (copyUnits s n).length = 2 * n := by
  induction n with
  | zero => rfl
  | succ n ih => rw [copyUnits_succ, List.length_append, ih]; rfl

/-- COPY of a result that has a place in `IN` (R94). -/
theorem copyMoves_eq {s : State} (hb : s.status ≠ .busy) (hcap : s.lenOut ≤ s.params.inCap) :
    copyMoves s = .read .regs 6 :: (copyUnits s s.lenOut ++ [.write .regs 1 s.lenOut]) := by
  rw [copyMoves, readLenOut_eq hb, Nat.min_eq_left hcap]; rfl

/-- In DONE the two accesses for unit `k` of the result move it to `IN` (R94, R227). -/
theorem run_copyUnit {s : State} {k : Nat} (h : s.Inv) (hd : s.status = .done) (hk : k < s.lenOut)
    (hcap : k < s.params.inCap) (q : List Move) :
    core.run 2 { s with queue := .read .outBuf k :: .write .inBuf k (readValue s .outBuf k) :: q } =
      .next { s with
        inBuf := s.inBuf.write k (s.outUnit k), queue := q, reply := some (readValue s .outBuf k) } := by
  have hexists : Space.outBuf.has s.params k = true :=
    decide_eq_true (Nat.lt_of_lt_of_le hk (lenOut_le_outCap h hd))
  have hwrite := step_write_in (s := { s with reply := some (readValue s .outBuf k) }) (u := s.outUnit k) (q := q)
    (by rw [hd]; decide) hcap
  rw [← readValue_out hd hk] at hwrite
  exact (run_next 1 (step_read hexists)).trans (run_next 0 hwrite)

/-- In DONE COPY's accesses leave the first `n` units of the result in `IN` (R94, R227). -/
theorem run_copyUnits {s : State} {n : Nat} (h : s.Inv) (hd : s.status = .done) (hn : n ≤ s.lenOut)
    (hcap : n ≤ s.params.inCap) (q : List Move) :
    ∃ r, core.run (2 * n) { s with queue := copyUnits s n ++ q } =
      .next { s with inBuf := s.inBuf.writeUnits 0 ((List.range n).map s.outUnit), queue := q, reply := r } := by
  induction n generalizing q with
  | zero => exact ⟨s.reply, rfl⟩
  | succ n ih =>
    obtain ⟨r, hr⟩ := ih (by omega) (by omega)
      ([.read .outBuf n, .write .inBuf n (readValue s .outBuf n)] ++ q)
    have hinv := run_inv (setQueue_inv h _ s.reply) hr
    have hlast := run_copyUnit hinv hd hn hcap q
    refine ⟨some (readValue s .outBuf n), ?_⟩
    rw [copyUnits_succ, List.append_assoc, Nat.mul_succ, run_add _ 2 hr, List.range_succ, List.map_append,
      List.map_singleton, Memory.writeUnits_concat, List.length_map, List.length_range, Nat.zero_add]
    exact hlast

/-- COPY has made the result of `s` the input, and the moves `q` are left to do (R94). -/
structure Copied (s : State) (q : List Move) (t : State) : Prop where
  inv : t.Inv
  status : t.status = .done
  params : t.params = s.params
  input : t.input = s.output
  queue : t.queue = q
  wrong : t.wrong = s.wrong

/-- COPY's accesses, made in DONE, make the result the input if it has a place in `IN` (R94). -/
theorem run_copyMoves {s : State} (h : s.Inv) (hd : s.status = .done) (hcap : s.lenOut ≤ s.params.inCap)
    (q : List Move) :
    ∃ t, core.run (copyMoves s).length { s with queue := copyMoves s ++ q } = .next t ∧ Copied s q t := by
  have hb : s.status ≠ .busy := by rw [hd]; decide
  obtain ⟨r, hr⟩ := run_copyUnits (setQueue_inv h [] (some (readValue s .regs 6))) hd (Nat.le_refl s.lenOut) hcap
    (.write .regs 1 s.lenOut :: q)
  have hrun : core.run (copyMoves s).length { s with queue := copyMoves s ++ q } =
      .next { s with inBuf := s.inBuf.writeUnits 0 s.output, lenIn := s.lenOut, queue := q, reply := r } := by
    rw [copyMoves_eq hb hcap, List.length_cons, List.length_append, copyUnits_length, List.cons_append,
      List.append_assoc, run_next _ (step_read (sp := .regs) rfl)]
    exact (run_add _ 1 hr).trans (run_next 0 (step_write_lenIn
      (s := { s with inBuf := s.inBuf.writeUnits 0 s.output, reply := r }) hb h.lenOut_fits))
  exact ⟨_, hrun, run_inv (setQueue_inv h _ s.reply) hrun, hd, rfl,
    input_of_writeUnits (m := s.inBuf) rfl (by simp [State.output]), rfl, rfl⟩

/-- COPY as a statement, taken up in DONE (R94). -/
theorem reaches_copy {s : State} {q : List Move} (h : s.Inv) (hd : s.status = .done)
    (hcap : s.lenOut ≤ s.params.inCap) (hq : s.queue = .stmt .copy :: q) : ∃ t, Reaches s t ∧ Copied s q t := by
  obtain ⟨t, ht, hC⟩ := run_copyMoves h hd hcap q
  exact ⟨t, (Reaches.of_step (step_stmt_of_met hq rfl)).trans (.of_run ht), hC⟩

/-- Reads of units of `OUT` that exist change what the host last read alone (R58). -/
theorem reaches_reads {s : State} {is : List Nat} (hin : ∀ i ∈ is, i < s.params.outCap) (q : List Move) :
    ∃ r, Reaches { s with queue := is.map (.read .outBuf) ++ q } { s with queue := q, reply := r } := by
  induction is generalizing s with
  | nil => exact ⟨s.reply, .refl _⟩
  | cons i is ih =>
    obtain ⟨hi, his⟩ := List.forall_mem_cons.1 hin
    obtain ⟨r, hr⟩ := ih (s := { s with reply := some (readValue s .outBuf i) }) his
    exact ⟨r, (Reaches.of_step (step_read (sp := .outBuf) (decide_eq_true hi))).trans hr⟩

/-- EXPECTX of the result, taken up in DONE, finds it and changes what the host last read alone (R94). -/
theorem reaches_expectx {s : State} {us : List Byte} {q : List Move} (h : s.Inv) (hd : s.status = .done)
    (hus : s.output = us) (hq : s.queue = .stmt (.expectx us) :: q) :
    ∃ r, Reaches s { s with queue := q, reply := r } := by
  have hb : s.status ≠ .busy := by rw [hd]; decide
  have htaken := step_stmt_of_met hq ((readsUnits_iff (s := { s with queue := q }) hd us).2 hus)
  have hexist : ∀ i ∈ List.range (readLenOut s), i < s.params.outCap := fun i hi => by
    rw [readLenOut_eq hb] at hi
    exact Nat.lt_of_lt_of_le (List.mem_range.1 hi) (lenOut_le_outCap h hd)
  obtain ⟨r, hr⟩ := reaches_reads (s := { s with reply := some (readValue s .regs 6) }) hexist q
  exact ⟨r, (Reaches.of_step htaken).trans ((Reaches.of_step (step_read (sp := .regs) rfl)).trans hr)⟩

/-! ### the round trip -/

/-- An ENCODE that fits has ended in DONE with the text, which is no longer than `IN` if a DECODE of it fits. -/
theorem Ended.of_encode {s t u : State} {q : List Move} (hE : Ended (opResult s.params .encode s.input) u q t)
    (hu : u.params = s.params) (henc : tooLarge s.params .encode s.lenIn = false)
    (hdec : tooLarge s.params .decode (resultLen .encode s.lenIn) = false) :
    t.status = .done ∧ t.output = encodeBytes s.input ∧ t.lenOut ≤ t.params.inCap := by
  rw [opResult_encode_of_fits (by rwa [input_length])] at hE
  obtain ⟨hd, _, _, hlen, hout⟩ := done_of_result hE.result hE.inv
  refine ⟨hd, hout, ?_⟩
  rw [hlen, encodeBytes_length, input_length, hE.same.params, hu]
  exact (tooLarge_eq_false.1 hdec).1

/-- DECODE of the text copied to `IN` gives the bytes (R170). -/
theorem opResult_of_copied {s t c : State} {q : List Move} (hC : Copied t q c) (hp : t.params = s.params)
    (ht : t.output = encodeBytes s.input)
    (hdec : tooLarge s.params .decode (resultLen .encode s.lenIn) = false) :
    opResult c.params .decode c.input = .done s.input := by
  rw [hC.params, hp, hC.input, ht]
  exact opResult_decode_encodeBytes (by rwa [encodeBytes_length, input_length])

/-- ENCODE, the accesses of COPY and DECODE, the operations as whole calls (R95, R170, R231). -/
theorem roundTrip_by_calls {s : State} (h : s.Inv) (hb : s.status ≠ .busy)
    (henc : tooLarge s.params .encode s.lenIn = false)
    (hdec : tooLarge s.params .decode (resultLen .encode s.lenIn) = false) :
    ∃ t r, exec .encode s = .next t ∧
      core.run ((copyMoves t).length + 1) { t with queue := copyMoves t ++ [.call 0x01#8] } = .next r ∧
      r.status = .done ∧ r.output = s.input := by
  obtain ⟨t, ht, hE⟩ := exec_ended h hb .encode
  obtain ⟨hd, hout, hcap⟩ := hE.of_encode rfl henc hdec
  obtain ⟨c, hc, hC⟩ := run_copyMoves hE.inv hd hcap [.call 0x01#8]
  have hcb : c.status ≠ .busy := by rw [hC.status]; decide
  obtain ⟨r, hr, hD⟩ := exec_ended (setQueue_inv hC.inv [] c.reply) hcb .decode
  have hdone := (opResult_of_copied hC hE.same.params hout hdec).symm ▸ hD.result
  obtain ⟨hrd, _, _, _, hrout⟩ := done_of_result hdone hD.inv
  refine ⟨t, r, ht, ?_, hrd, hrout⟩
  rw [run_add _ 1 hc]
  exact run_next 0 ((step_of_cons hC.queue).trans hr)

/-- The same as a program of statements in front of the pending moves, each taken up in the state of its own turn, whose
EXPECTX finds the bytes (R94, R170). -/
theorem roundTrip_by_statements {s : State} (h : s.Inv) (hb : s.status ≠ .busy)
    (henc : tooLarge s.params .encode s.lenIn = false)
    (hdec : tooLarge s.params .decode (resultLen .encode s.lenIn) = false) :
    ∃ (n : Nat) (u : State), core.run n { s with
        queue := [.encode, .wait, .copy, .decode, .wait, .expectx s.input].map Move.stmt ++ s.queue } = .next u ∧
      u.queue = s.queue ∧ u.wrong = s.wrong ∧ u.status = .done ∧ u.output = s.input := by
  obtain ⟨t, ht, hE⟩ := reaches_issue_wait (i := .encode) (setQueue_inv h
    ([.encode, .wait, .copy, .decode, .wait, .expectx s.input].map Move.stmt ++ s.queue) s.reply) hb rfl
  obtain ⟨hd, hout, hcap⟩ := Ended.of_encode (s := s) hE rfl henc hdec
  obtain ⟨c, hc, hC⟩ := reaches_copy hE.inv hd hcap hE.same.queue
  have hcb : c.status ≠ .busy := by rw [hC.status]; decide
  obtain ⟨r, hr, hD⟩ := reaches_issue_wait (i := .decode) hC.inv hcb hC.queue
  have hdone := opResult_of_copied (s := s) hC hE.same.params hout hdec ▸ hD.result
  obtain ⟨hrd, _, _, _, hrout⟩ := done_of_result hdone hD.inv
  obtain ⟨v, n, hn⟩ := reaches_expectx hD.inv hrd hrout hD.same.queue
  obtain ⟨m, hm⟩ := ht.trans (hc.trans hr)
  exact ⟨m + n, _, (run_add m n hm).trans hn, rfl, hD.same.wrong.trans (hC.wrong.trans hE.same.wrong), hrd, hrout⟩

/-! ### an invalid character, and no input -/

/-- With some invalid unit below `LEN_IN` there is a lowest one (R191). -/
theorem exists_lowest_invalid {s : State} (h : ∃ k < s.lenIn, charValid (s.inUnit k) = false) :
    ∃ k < s.lenIn, charValid (s.inUnit k) = false ∧ ∀ j < k, charValid (s.inUnit j) = true := by
  obtain ⟨hlt, hbad⟩ := Nat.find_spec h
  refine ⟨Nat.find h, hlt, hbad, fun j hj => ?_⟩
  by_contra hv
  exact Nat.find_min h hj ⟨Nat.lt_trans hj hlt, by simpa using hv⟩

theorem groupsOf_zero (i : Instr) : groupsOf i 0 = 0 := by cases i <;> rfl

/-- The empty input fits whatever the capacities are (R174). -/
theorem tooLarge_zero (p : Params) (i : Instr) : tooLarge p i 0 = false :=
  tooLarge_eq_false.2 ⟨Nat.zero_le _, by rw [groupsOf_zero]; exact Nat.zero_le _⟩

/-- With no input an operation is START and FINISH (R174). -/
theorem exec_of_empty {s : State} (hb : s.status ≠ .busy) (hl : s.lenIn = 0) (i : Instr) :
    exec i s = .next (finishOperation i (beginOperation i { s with op := opOf i })) := by
  have hbegin : startOperation i { s with op := opOf i } = beginOperation i { s with op := opOf i } :=
    startOperation_of_fits (by rw [hl]; exact tooLarge_zero _ i)
  have hnone : (beginOperation i { s with op := opOf i }).ngrp = 0 := by simp [hl, groupsOf_zero, trunc]
  have hinstr : (beginOperation i { s with op := opOf i }).instr = i := setOp_instr s i
  have hfinish := coreStep_of_grp_eq_ngrp (s := beginOperation i { s with op := opOf i }) hnone.symm
  rw [coreStep_unit, hinstr] at hfinish
  rw [exec_of_not_busy hb, hbegin, runUnit_busy _ _ rfl hfinish]
  exact runUnit_of_not_busy _ _ (by simp)

end Sys2Proof.Machine

namespace Sys2Proof.Proofs

open Sys2Proof Sys2Proof.Machine

/-- Settles O43: COPY makes the text the input, and DECODE of the text gives the bytes; by calls and by statements. -/
theorem oneInstanceRoundTrip : Obligations.OneInstanceRoundTrip := by
  intro s h hb henc hdec
  obtain ⟨t, r, ht, hrun, hd, hout⟩ := roundTrip_by_calls h hb henc hdec
  exact ⟨t, r, ht, hrun, hd, hout, roundTrip_by_statements h hb henc hdec⟩

/-- Settles O37: the operation ends in its function's result, which is the error at the lowest invalid index. -/
theorem decodeRaisesInvalidCharacter : Obligations.DecodeRaisesInvalidCharacter := by
  intro s h hb hin hout hinvalid
  obtain ⟨k, hk, hbad, hbefore⟩ := exists_lowest_invalid hinvalid
  have hfit : tooLarge s.params .decode s.input.length = false := by
    rw [input_length]; exact tooLarge_eq_false.2 ⟨hin, hout⟩
  have hunit : ∀ j ≤ k, s.input[j]? = some (s.inUnit j) := fun j hj => by
    rw [input_getElem?, if_pos (Nat.lt_of_le_of_lt hj hk)]
  have hlower : ∀ j < k, ∀ d, s.input[j]? = some d → charValid d = true := fun j hj d hd => by
    rw [hunit j hj.le, Option.some.injEq] at hd
    exact hd ▸ hbefore j hj
  obtain ⟨t, ht, hI, _, _, hr⟩ := exec_ends h hb .decode
  rw [opResult_decode_of_invalid hfit (hunit k le_rfl) hbad hlower] at hr
  obtain ⟨hstatus, herr, rfl, hlen⟩ := err_of_result hr hI
  exact ⟨t, ht, hstatus, herr, hlen, hk, hbad, hbefore⟩

/-- Settles O40: with no group to do the one step after START is FINISH, and it writes a length of 0. -/
theorem emptyInputEndsDone : Obligations.EmptyInputEndsDone := by
  intro i s hb hl
  have hlen : (finishOperation i (beginOperation i { s with op := opOf i })).lenOut = 0 := by
    simp [hl, groupsOf_zero, trunc]
  exact ⟨_, exec_of_empty hb hl i, rfl, rfl, rfl, hlen, rfl,
    by simp only [State.result, finishOperation_status, State.output, hlen, List.range_zero, List.map_nil]⟩

end Sys2Proof.Proofs
end

section
/-! SUPPORT. The facts the statements about the errors share: when an operation does not fit, what it then ends in, and
the turn of a CORE that is not BUSY (R192, R195, R204). -/

namespace Sys2Proof.Machine

/-- An operation does not fit when its input or all its groups' output exceeds the buffer (R192). -/
theorem tooLarge_eq_true {p : Params} {i : Instr} {n : Nat} :
    tooLarge p i n = true ↔ p.inCap < n ∨ p.outCap < outSize i * groupsOf i n := by
  simp [tooLarge]

/-- An operation that does not fit is the error entry, straight from START: no unit of `IN` is read (R192, R195). -/
theorem exec_of_tooLarge {i : Instr} {s : State} (hb : s.status ≠ .busy)
    (hlarge : tooLarge s.params i s.lenIn = true) :
    exec i s = .next (raiseError .inputTooLarge 0 (freeInternals { s with op := opOf i })) := by
  have hstart : startOperation i { s with op := opOf i } =
      raiseError .inputTooLarge 0 (freeInternals { s with op := opOf i }) := startOperation_of_tooLarge hlarge
  rw [exec_of_not_busy hb, hstart]
  exact runUnit_of_not_busy _ _ (by simp)

/-- A turn given to a CORE that is not BUSY changes nothing (R204). -/
theorem coreTurn_of_not_busy {s : State} (hb : s.status ≠ .busy) : coreTurn s = .next s := by
  simp [coreTurn, hb]

end Sys2Proof.Machine

namespace Sys2Proof.Proofs

open Sys2Proof Sys2Proof.Machine

/-! ## The statements of 60_exceptions.md -/

/-- Settles O22: the operation's function tests the length first, and then looks for the first invalid character. -/
theorem decodeErrorPriority : Obligations.DecodeErrorPriority :=
  fun _ _ => ⟨opResult_of_tooLarge, fun hfit _ _ hk hc hbefore => opResult_decode_of_invalid hfit hk hc hbefore⟩

/-- Settles O38: the operation ends in the error entry at its START, after its issue wrote `OP`; neither touches `LEN_IN` or
`IN`. -/
theorem operationRaisesInputTooLarge : Obligations.OperationRaisesInputTooLarge := by
  intro i s hb hexceeds
  have hlarge : tooLarge s.params i s.lenIn = true := by
    rw [tooLarge_eq_true]
    cases i with
    | encode => exact hexceeds
    | decode => exact hexceeds
  exact ⟨_, exec_of_tooLarge hb hlarge, rfl, rfl, Nat.zero_mod _, rfl, rfl, rfl, rfl⟩

/-- Settles O33: a move that gives CORE its turn, and a step with no move pending, are both CORE's turn. -/
theorem idleCoreKeepsItsState : Obligations.IdleCoreKeepsItsState := by
  intro s hb
  refine ⟨?_, fun hq => ?_⟩
  · rw [step_withMove]; exact coreTurn_of_not_busy hb
  · rw [step_of_empty hq]; exact coreTurn_of_not_busy hb

end Sys2Proof.Proofs
end

section
/-! SUPPORT. The facts the statements about START, CORE's steps and the moves of `STATE` share: an operation's own turns of
CORE against its run in one step, a running operation's end, and what a step can do to `STATE` and the result, said once
(R223 to R228, R231). -/

namespace Sys2Proof.Machine

/-! ### START -/

/-- A choice by the two values of `OP` is a choice by the operation it selects (R90). -/
theorem ite_op_eq {α : Type} (s : State) (f : Instr → α) :
    (if s.op = 0#1 then f .encode else f .decode) = f s.instr := by
  unfold State.instr decodeOp; split <;> rfl

/-- Outside BUSY a host write of START, of any value, is START of the operation `OP` selects (R25, R224). -/
theorem step_withMove_start {s : State} (hb : s.status ≠ .busy) (v : Nat) :
    step (s.withMove (.write .regs 2 v)) = .next (startOperation s.instr s) :=
  step_write_start hb

/-- START does not look at the environment's moves (R224). -/
theorem startOperation_setQueue (i : Instr) (s : State) (q : List Move) :
    startOperation i { s with queue := q } = { startOperation i s with queue := q } := by
  unfold startOperation; split <;> rfl

/-- START ends in BUSY or ERROR (R223, R224). -/
theorem startOperation_status (i : Instr) (s : State) :
    (startOperation i s).status = .busy ∨ (startOperation i s).status = .error := by
  unfold startOperation; split
  · exact .inr rfl
  · exact .inl rfl

/-- `NGRP` takes the group count whole (R32, R224). -/
theorem trunc_groupsOf {s : State} (h : s.Inv) (i : Instr) :
    trunc s.params (groupsOf i s.lenIn) = groupsOf i s.lenIn :=
  trunc_of_lt (Nat.lt_of_le_of_lt (groupsOf_le _ _) h.lenIn_fits)

/-- `InputTooLarge` at START as far as a claim may read it (R195, R224, R232). -/
theorem raiseTooLarge_specified (s : State) :
    (raiseError .inputTooLarge 0 (freeInternals s)).specified =
      State.specified { s with err := .inputTooLarge, errIdx := 0, lenOut := 0, status := .error } := by
  simp [State.specified, raiseError, freeInternals, trunc]

/-! ### an operation by turns of CORE -/

/-- A turn given to a BUSY CORE is its step, with the rest of the moves left (R225). -/
theorem step_core_of_busy {s t : State} (hb : s.status = .busy) (ht : coreStep s = .next t) (q : List Move) :
    step { s with queue := .core :: q } = .next { t with queue := q } :=
  (coreTurn_of_busy (s := { s with queue := q }) hb).trans (coreStep_setQueue q ht)

/-- A turn given to a CORE that is not BUSY is taken and changes nothing (R204). -/
theorem step_core_of_not_busy {s : State} (hb : s.status ≠ .busy) (q : List Move) :
    step { s with queue := .core :: q } = .next { s with queue := q } :=
  coreTurn_of_not_busy (s := { s with queue := q }) hb

/-- A unit's run in one step ends as that many turns of CORE do: a turn is a step of the unit while the operation runs,
and nothing once it has ended (R204, R225, R231). -/
theorem run_coreTurns (n : Nat) {s t : State} (h : s.Inv) (q : List Move)
    (ht : runUnit (unitOf s.instr) n s = .next t) :
    core.run n { s with queue := List.replicate n .core ++ q } = .next { t with queue := q } := by
  induction n generalizing s with
  | zero =>
    unfold runUnit at ht
    split at ht
    · cases ht
    · cases ht; rfl
  | succ n ih =>
    rw [List.replicate_succ, List.cons_append]
    by_cases hb : s.status = .busy
    · obtain ⟨u, hu⟩ := coreStep_next h hb
      have hinstr : u.instr = s.instr := congrArg decodeOp (coreStep_same h hb hu).op
      rw [runUnit_busy _ _ hb ((coreStep_unit s).symm.trans hu), ← hinstr] at ht
      rw [run_next n (step_core_of_busy hb hu _)]
      exact ih (coreStep_inv h hb hu) ht
    · rw [runUnit_of_not_busy _ _ hb] at ht
      rw [run_next n (step_core_of_not_busy hb _)]
      exact ih h ((runUnit_of_not_busy _ n hb).trans ht)

/-- The host's writes of `OP` and START issue the operation (R94, R224). -/
theorem run_issue {s : State} (hb : s.status ≠ .busy) (i : Instr) (v : Nat) (q : List Move) :
    core.run 2 { s with queue := .write .regs 0 (opOf i).toNat :: .write .regs 2 v :: q } =
      .next { startOperation i { s with op := opOf i } with queue := q } := by
  have hop := step_write_op (s := s) (v := (opOf i).toNat) (q := .write .regs 2 v :: q) hb
  have hstart := step_write_start (s := { s with op := opOf i }) (v := v) (q := q) hb
  rw [show opBits (opOf i).toNat = opOf i by simp [opBits]] at hop
  rw [setOp_instr] at hstart
  rw [run_next 1 hop, run_next 0 hstart, run_zero]
  exact congrArg Host.Outcome.next (startOperation_setQueue i { s with op := opOf i } q)

/-- The issue by two writes and a turn of CORE for each group and one more come to the state the operation in one step
answers, with the moves after them left (R225, R231). -/
theorem run_issue_coreTurns {s t : State} {i : Instr} (h : s.Inv) (hb : s.status ≠ .busy) (v : Nat) (q : List Move)
    (ht : exec i s = .next t) :
    core.run (groupsOf i s.lenIn + 3) { s with
      queue := .write .regs 0 (opOf i).toNat :: .write .regs 2 v ::
        (List.replicate (groupsOf i s.lenIn + 1) .core ++ q) } = .next { t with queue := q } := by
  have hstarted := startOperation_inv (setOp_inv h hb (opOf i))
  rw [setOp_instr] at hstarted
  have hinstr : (startOperation i { s with op := opOf i }).instr = i := by
    rw [State.instr, startOperation_op, decodeOp_opOf]
  rw [exec_of_not_busy hb] at ht
  rw [show groupsOf i s.lenIn + 3 = 2 + (groupsOf i s.lenIn + 1) by omega, run_add 2 _ (run_issue hb i v _)]
  exact run_coreTurns _ hstarted q (hinstr.symm ▸ ht)

/-- With no move pending a BUSY operation ends after a step for each group left and one for FINISH, at most (R225). -/
theorem run_ends_of_busy {s : State} (h : s.Inv) (hb : s.status = .busy) (hq : s.queue = []) :
    ∃ n t, n ≤ s.ngrp - s.grp + 1 ∧ core.run n s = .next t ∧ (t.status = .done ∨ t.status = .error) := by
  induction hleft : s.ngrp - s.grp using Nat.strong_induction_on generalizing s with
  | h left ih =>
    obtain ⟨t, ht, hI, hS, hend⟩ := coreStep_progress h hb
    have hstep : step s = .next t := by rw [step_of_empty hq, coreTurn_of_busy hb, ht]
    rcases hend with ⟨_, hd, _⟩ | ⟨htb, hn, hg, hlt⟩
    · exact ⟨1, t, by omega, run_next 0 hstep, hd⟩
    · obtain ⟨n, u, hbound, hu, hd⟩ := ih _ (by omega) hI htb (hS.queue.trans hq) rfl
      exact ⟨n + 1, u, by omega, (run_next n hstep).trans hu, hd⟩

/-! ### how `STATE` moves in a step of CORE, in any state -/

theorem encGroupStep_status {s t : State} (h : encGroupStep s = .next t) : t.status = s.status := by
  unfold encGroupStep at h
  split at h
  · cases h; rfl
  · cases h

theorem decGroupStep_status {s t : State} (h : decGroupStep s = .next t) :
    t.status = s.status ∨ t.status = .error := by
  unfold decGroupStep at h
  split at h
  · split at h
    · cases h; exact .inr rfl
    · cases h; exact .inl rfl
  · cases h

/-- Sequencing adds to what a group step does to `STATE` the DONE of FINISH (R102, R132). -/
theorem stepSequence_status {i : Instr} {g : State → Answer} {s t : State}
    (hg : ∀ u, g s = .next u → u.status = s.status ∨ u.status = .error) (h : stepSequence i g s = .next t) :
    t.status = s.status ∨ t.status = .done ∨ t.status = .error := by
  rcases stepSequence_cases i g s with ⟨_, hgroup⟩ | ⟨_, hfinish⟩ | ⟨_, hfault⟩
  · exact (hg t (hgroup.symm.trans h)).imp_right .inr
  · cases hfinish.symm.trans h; exact .inr (.inl rfl)
  · cases hfault.symm.trans h

/-- A step of either unit leaves `STATE` as it is or moves it to DONE or ERROR (R223). -/
theorem unitOf_status {i : Instr} {s t : State} (h : unitOf i s = .next t) :
    t.status = s.status ∨ t.status = .done ∨ t.status = .error := by
  cases i with
  | encode => exact stepSequence_status (fun _ hu => .inl (encGroupStep_status hu)) h
  | decode => exact stepSequence_status (fun _ hu => decGroupStep_status hu) h

theorem coreStep_status_of_busy {s t : State} (hb : s.status = .busy) (h : coreStep s = .next t) :
    t.status = .busy ∨ t.status = .done ∨ t.status = .error :=
  hb ▸ unitOf_status ((coreStep_unit s).symm.trans h)

/-- A unit's run that answers has ended the operation (R223, R225). -/
theorem runUnit_status {i : Instr} {n : Nat} {s t : State}
    (hs : s.status = .busy ∨ s.status = .done ∨ s.status = .error) (h : runUnit (unitOf i) n s = .next t) :
    t.status = .done ∨ t.status = .error := by
  induction n generalizing s with
  | zero =>
    unfold runUnit at h
    split at h
    · cases h
    · next hb => cases h; exact hs.resolve_left hb
  | succ n ih =>
    unfold runUnit at h
    split at h
    · next hb =>
      split at h
      · next u hu => exact ih (hb ▸ unitOf_status hu) h
      · cases h
      · cases h
    · next hb => cases h; exact hs.resolve_left hb

/-- A whole operation that answers has ended in DONE or ERROR (R223, R231). -/
theorem exec_status {i : Instr} {s t : State} (h : exec i s = .next t) : t.status = .done ∨ t.status = .error := by
  rw [exec_of_not_busy (not_busy_of_exec h)] at h
  exact runUnit_status ((startOperation_status _ _).imp_right .inr) h

/-! ### what a step does to `STATE` and the result -/

/-- `STATE` and what holds the result are as before; so is the count of steps, by which the free values go (log 4). -/
structure ResultKept (s t : State) : Prop where
  status : t.status = s.status
  err : t.err = s.err
  errIdx : t.errIdx = s.errIdx
  lenOut : t.lenOut = s.lenOut
  outBuf : t.outBuf = s.outBuf
  tick : t.tick = s.tick

theorem ResultKept.result_eq {s t : State} (h : ResultKept s t) : t.result = s.result :=
  result_congr h.status h.err h.errIdx h.lenOut fun k _ => by rw [State.outUnit, State.outUnit, h.outBuf, h.tick]

/-- What a step from `s` to `t` on the environment's move `m`, or on none, does to `STATE` and the result (R223). -/
inductive StatusEffect (m : Option Move) (s t : State) : Prop where
  /-- Nothing: a read, a write that is no START, a statement, a turn or a poll outside BUSY (R204, R228). -/
  | kept (h : ResultKept s t)
  /-- START (R224). -/
  | started (v : Nat) (hm : m = some (.write .regs 2 v)) (hb : s.status ≠ .busy)
      (h : t.status = .busy ∨ t.status = .error)
  /-- A step of CORE, which its turn or a poll gives it (R225, log 25). -/
  | stepped (hm : m = none ∨ m = some .core ∨ m = some .wait) (hb : s.status = .busy)
      (h : t.status = .busy ∨ t.status = .done ∨ t.status = .error)
  /-- A whole operation (R231). -/
  | called (w : Byte) (hm : m = some (.call w)) (hb : s.status ≠ .busy) (h : t.status = .done ∨ t.status = .error)
  /-- Reset (R220). -/
  | wasReset (hm : m = some .reset) (h : t.status = .idle)

/-- The moves pending are no part of what an effect is about. -/
theorem StatusEffect.of_setQueue {m : Option Move} {s t : State} {q : List Move}
    (h : StatusEffect m { s with queue := q } t) : StatusEffect m s t := by
  cases h with
  | kept h => exact .kept ⟨h.status, h.err, h.errIdx, h.lenOut, h.outBuf, h.tick⟩
  | started v hm hb h => exact .started v hm hb h
  | stepped hm hb h => exact .stepped hm hb h
  | called w hm hb h => exact .called w hm hb h
  | wasReset hm h => exact .wasReset hm h

theorem coreTurn_effect {m : Option Move} {s t : State} (hm : m = none ∨ m = some .core)
    (h : coreTurn s = .next t) : StatusEffect m s t := by
  by_cases hb : s.status = .busy
  · rw [coreTurn_of_busy hb] at h
    exact .stepped (hm.imp_right .inl) hb (coreStep_status_of_busy hb h)
  · cases (coreTurn_of_not_busy hb).symm.trans h
    exact .kept ⟨rfl, rfl, rfl, rfl, rfl, rfl⟩

theorem hostRead_effect {sp : Space} {i : Nat} {s t : State} (h : hostRead sp i s = .next t) :
    StatusEffect (some (.read sp i)) s t := by
  cases hh : sp.has s.params i with
  | true => cases (hostRead_of_has hh).symm.trans h; exact .kept ⟨rfl, rfl, rfl, rfl, rfl, rfl⟩
  | false => cases (hostRead_of_not_has hh).symm.trans h

/-- Of the writes outside BUSY START alone touches `STATE` or the result (R36, R228). -/
theorem acceptWrite_effect {s : State} (hb : s.status ≠ .busy) (sp : Space) (i v : Nat) :
    StatusEffect (some (.write sp i v)) s (acceptWrite sp i v s) := by
  unfold acceptWrite
  split
  · exact .kept ⟨rfl, rfl, rfl, rfl, rfl, rfl⟩
  · exact .kept ⟨rfl, rfl, rfl, rfl, rfl, rfl⟩
  · exact .started v rfl hb (startOperation_status _ _)
  · exact .kept ⟨rfl, rfl, rfl, rfl, rfl, rfl⟩
  · exact .kept ⟨rfl, rfl, rfl, rfl, rfl, rfl⟩
  · exact .kept ⟨rfl, rfl, rfl, rfl, rfl, rfl⟩

theorem hostWrite_effect {sp : Space} {i v : Nat} {s t : State} (h : hostWrite sp i v s = .next t) :
    StatusEffect (some (.write sp i v)) s t := by
  rcases hostWrite_cases sp i v s with ⟨_, hw⟩ | ⟨_, _, hw⟩ | ⟨_, _, _, hw⟩ | ⟨_, _, hb, hw⟩ <;> cases hw.symm.trans h
  · exact .kept ⟨rfl, rfl, rfl, rfl, rfl, rfl⟩
  · exact acceptWrite_effect hb sp i v

theorem hostWait_effect {s t : State} (h : hostWait s = .next t) : StatusEffect (some .wait) s t := by
  by_cases hb : s.status = .busy
  · rw [hostWait_of_busy hb] at h
    have hstatus := coreStep_status_of_busy (s := { s with reply := some (regValue s 3), queue := .wait :: s.queue }) hb h
    exact .stepped (.inr (.inr rfl)) hb hstatus
  · rw [hostWait, if_neg hb] at h
    cases h; exact .kept ⟨rfl, rfl, rfl, rfl, rfl, rfl⟩

theorem doMove_effect {m : Move} {s t : State} (h : doMove m s = .next t) : StatusEffect (some m) s t := by
  cases m with
  | read sp i => exact hostRead_effect h
  | write sp i v => exact hostWrite_effect h
  | wait => exact hostWait_effect h
  | core => exact coreTurn_effect (.inr rfl) h
  | reset => cases h; exact .wasReset rfl rfl
  | call w => exact .called w rfl (not_busy_of_exec h) (exec_status h)
  | stmt st => cases h; exact .kept ⟨rfl, rfl, rfl, rfl, rfl, rfl⟩

/-- All that a step can do to `STATE` and the result, in any state (R223, R228). -/
theorem step_effect {s t : State} (h : step s = .next t) : StatusEffect s.queue.head? s t := by
  cases hq : s.queue with
  | nil => rw [step_of_empty hq] at h; exact coreTurn_effect (.inl rfl) h
  | cons m rest => rw [step_of_cons hq] at h; exact (doMove_effect h).of_setQueue

/-! ### host accesses -/

/-- While BUSY a host write to a place that exists and takes writes is refused by name (R227, log 7). -/
theorem hostWrite_of_busy {s : State} {sp : Space} {i : Nat} (h : sp.has s.params i = true)
    (hi : ignoresWrites sp i = false) (hb : s.status = .busy) (v : Nat) :
    hostWrite sp i v s = .refused (.hostWriteWhileBusy sp i) := by
  simp [hostWrite, h, hi, hb]

/-- Outside BUSY a host read of a unit of `IN` returns the unit (R227). -/
theorem readValue_in {s : State} (hb : s.status ≠ .busy) (i : Nat) : readValue s .inBuf i = (s.inUnit i).toNat := by
  simp [readValue, hb]

/-- A written unit of `OUT` is what is listed (R35). -/
theorem outUnit_of_read {s : State} {i : Nat} {u : Byte} (h : s.outBuf.read i = some u) : s.outUnit i = u := by
  simp [State.outUnit, h]

end Sys2Proof.Machine

namespace Sys2Proof.Proofs

open Sys2Proof Sys2Proof.Machine

/-! ## The statements of 70_reset_and_hazards.md -/

/-- Settles O42: each turn of CORE is one step of the run exec makes at once, and the turns left when it has ended change
nothing; so the two come to the very same state. -/
theorem atomicCallIsReferenceRun : Obligations.AtomicCallIsReferenceRun := by
  intro i s v h hb
  obtain ⟨t, ht, _, hS, _⟩ := exec_ends h hb i
  have hrun := run_issue_coreTurns h hb v s.queue ht
  have hqueue : ({ t with queue := s.queue } : State) = t := by rw [← show t.queue = s.queue from hS.queue]
  rw [hqueue] at hrun
  exact ⟨t, t, ht, rfl, rfl, hrun⟩

/-- Settles O26: the write is START of the operation `OP` selects, which looks whether the operands fit. -/
theorem startBeginsOrRaises : Obligations.StartBeginsOrRaises := by
  intro s v h hb n G P need
  have hG : G = groupsOf s.instr s.lenIn := ite_op_eq s fun i => groupsOf i s.lenIn
  have hP : P = padOf s.instr s.lenIn := ite_op_eq s fun i => padOf i s.lenIn
  have hneed : need = outSize s.instr * groupsOf s.instr s.lenIn := hG ▸ ite_op_eq s fun i => outSize i * G
  rw [step_withMove_start hb, hneed]
  refine ⟨fun hin hout => ?_, fun hlarge => ⟨_, rfl, ?_⟩⟩
  · rw [startOperation_of_fits (tooLarge_eq_false.2 ⟨hin, hout⟩), beginOperation, trunc_groupsOf h, hG, hP]
  · rw [startOperation_of_tooLarge (tooLarge_eq_true.2 hlarge)]
    exact raiseTooLarge_specified s

/-- Settles O46: each step ends the operation or leaves one group less to do. -/
theorem operationEndsInTime : Obligations.OperationEndsInTime :=
  fun _ h hb hq => run_ends_of_busy h hb hq

/-- Settles O48: each effect of a step is one line of the table, or leaves `STATE` as it is. -/
theorem statusMovesOnlyAsListed : Obligations.StatusMovesOnlyAsListed := by
  intro s t ht
  cases step_effect ht with
  | kept h => exact .inl h.status
  | started v hm hb h => exact .inr (.inl ⟨hb, ⟨v, hm⟩, h⟩)
  | stepped hm hb h =>
    rcases h with hbusy | hend
    · exact .inl (hbusy.trans hb.symm)
    · exact .inr (.inr (.inl ⟨hb, hm, hend⟩))
  | called w hm hb h => exact .inr (.inr (.inr (.inl ⟨hb, ⟨w, hm⟩, h⟩)))
  | wasReset hm h => exact .inr (.inr (.inr (.inr ⟨hm, h⟩)))

/-- Settles O49: of the effects of a step three are on the moves left out and one is of a BUSY CORE; what is left keeps the
result. -/
theorem resultKeptUntilStartOrReset : Obligations.ResultKeptUntilStartOrReset := by
  intro s t hend ht hstart hcall hreset
  cases step_effect ht with
  | kept h => exact ⟨h.result_eq, h.lenOut, h.err, h.errIdx, fun k _ => by rw [h.outBuf]⟩
  | started v hm _ _ => exact absurd hm (hstart v)
  | stepped _ hb _ => rw [hb] at hend; cases hend <;> contradiction
  | called w hm _ _ => exact absurd hm (hcall w)
  | wasReset hm _ => exact absurd hm hreset

/-- Settles O52: under the invariant every unit of the result is written and lies in `OUT`. -/
theorem bufferReads : Obligations.BufferReads := by
  refine ⟨fun s i hb hi => ?_, fun s i h hd hi => ?_⟩
  · rw [step_withMove, ← readValue_in hb]
    exact hostRead_of_has (decide_eq_true hi)
  · obtain ⟨u, hu⟩ := Option.isSome_iff_exists.1 (h.done_written hd i hi)
    have hcap : i < s.params.outCap := Nat.lt_of_lt_of_le hi (lenOut_le_outCap h hd)
    refine ⟨u, hu, ?_⟩
    rw [step_withMove, ← outUnit_of_read hu, ← readValue_out hd hi]
    exact hostRead_of_has (decide_eq_true hcap)

/-- Settles O56: registers 0 to 2 and the units of `IN` exist and take writes, and an issue asks first whether CORE is
BUSY. -/
theorem busyWritesRefused : Obligations.BusyWritesRefused := by
  intro s v hb
  refine ⟨fun r hr => ?_, fun i hi => ?_, exec_of_busy hb⟩
  · exact hostWrite_of_busy (sp := .regs) (decide_eq_true (Nat.lt_trans hr (by decide)))
      (decide_eq_false (Nat.not_le_of_lt hr)) hb v
  · exact hostWrite_of_busy (sp := .inBuf) (decide_eq_true hi) rfl hb v

end Sys2Proof.Proofs
end
